-- ==== Sys2Proof/Word.lean ====
section
/-! DEFINITION. The word types of the core: the byte a register and a memory cell hold, the 16-bit
instruction word, index register and program counter, and the 4-bit and 12-bit instruction fields
(R9, R10, R100, R101). Every quantity is unsigned: a value is read by `toNat` alone, extended with zeros
and shifted logically, and nothing in the model reads one as signed (R29, R102, R191). -/

namespace Sys2Proof

/-- What a general register, a timer and a memory cell hold (R8, R9, R11). -/
abbrev Byte := BitVec 8

/-- An instruction word, a stack entry, the contents of I and of PC (R10, R40, R100). -/
abbrev Word := BitVec 16

/-- A register index, a key index or a low nibble (R101, R103). -/
abbrev Nibble := BitVec 4

/-- The field NNN (R101). -/
abbrev Addr12 := BitVec 12

end Sys2Proof
end

