-- ==== Sys2Proof/Syntax.lean ====
section
/-! DEFINITION. The decoded instruction (R110): one constructor per row of spec/opcode_table.json, in
the table's order. A constructor carries every bit of the word its row leaves open, also the bits the
row does not examine (named u, log entry 10), so that decoding drops nothing. -/

namespace Sys2Proof

/-- A decoded instruction: opcode class and operand fields (R106, R107, R110). -/
inductive Instr where
  /-- `0uE0` CLS (R250). -/
  | cls (u : Nibble)
  /-- `0uEE` RET (R150). -/
  | ret (u : Nibble)
  /-- `1NNN` JP NNN (R151). -/
  | jp (nnn : Addr12)
  /-- `2NNN` CALL NNN (R152). -/
  | call (nnn : Addr12)
  /-- `3XNN` SE Vx, NN (R154). -/
  | seImm (x : Nibble) (nn : Byte)
  /-- `4XNN` SNE Vx, NN (R155). -/
  | sneImm (x : Nibble) (nn : Byte)
  /-- `5XYu` SE Vx, Vy (R156), low nibble not examined (R105). -/
  | seReg (x y u : Nibble)
  /-- `6XNN` LD Vx, NN (R180). -/
  | ldImm (x : Nibble) (nn : Byte)
  /-- `7XNN` ADD Vx, NN (R181). -/
  | addImm (x : Nibble) (nn : Byte)
  /-- `8XY0` LD Vx, Vy (R182). -/
  | ldReg (x y : Nibble)
  /-- `8XY1` OR Vx, Vy (R183). -/
  | orReg (x y : Nibble)
  /-- `8XY2` AND Vx, Vy (R184). -/
  | andReg (x y : Nibble)
  /-- `8XY3` XOR Vx, Vy (R185). -/
  | xorReg (x y : Nibble)
  /-- `8XY4` ADD Vx, Vy (R186). -/
  | addReg (x y : Nibble)
  /-- `8XY5` SUB Vx, Vy (R187). -/
  | subReg (x y : Nibble)
  /-- `8XY6` SHR Vx, the Y field ignored by its meaning (R188). -/
  | shr (x y : Nibble)
  /-- `8XY7` SUBN Vx, Vy (R189). -/
  | subnReg (x y : Nibble)
  /-- `8XYE` SHL Vx, the Y field ignored by its meaning (R190). -/
  | shl (x y : Nibble)
  /-- `9XYu` SNE Vx, Vy (R157), low nibble not examined (R105). -/
  | sneReg (x y u : Nibble)
  /-- `ANNN` LD I, NNN (R220). -/
  | ldI (nnn : Addr12)
  /-- `BNNN` JP V0, NNN (R158). -/
  | jpV0 (nnn : Addr12)
  /-- `CXNN` RND Vx, NN (R205). -/
  | rnd (x : Nibble) (nn : Byte)
  /-- `DXYN` DRW Vx, Vy, N (R252). -/
  | drw (x y n : Nibble)
  /-- `EX9E` SKP Vx (R280). -/
  | skp (x : Nibble)
  /-- `EXA1` SKNP Vx (R281). -/
  | sknp (x : Nibble)
  /-- `FX07` LD Vx, DT (R286). -/
  | ldVxDt (x : Nibble)
  /-- `FX0A` LD Vx, K (R284). -/
  | ldVxK (x : Nibble)
  /-- `FX15` LD DT, Vx (R287). -/
  | ldDtVx (x : Nibble)
  /-- `FX18` LD ST, Vx (R288). -/
  | ldStVx (x : Nibble)
  /-- `FX1E` ADD I, Vx (R221). -/
  | addI (x : Nibble)
  /-- `FX29` LD F, Vx (R222). -/
  | ldF (x : Nibble)
  /-- `FX33` LD B, Vx (R223). -/
  | ldB (x : Nibble)
  /-- `FX55` LD [I], Vx (R224). -/
  | ldMemVx (x : Nibble)
  /-- `FX65` LD Vx, [I] (R225). -/
  | ldVxMem (x : Nibble)
  /-- `0NNN` SYS NNN / NOP: low byte neither `E0` nor `EE` (R142). -/
  | sys (nnn : Addr12)
  /-- NOP of group 8: low nibble 8 to D or F (R107, R141; log entry 18 for the three NOP rows). -/
  | nop8 (x y n : Nibble)
  /-- NOP of group E: low byte neither `9E` nor `A1` (R107, R141). -/
  | nopE (x : Nibble) (nn : Byte)
  /-- NOP of group F: low byte none of the nine of group F's rows (R107, R141). -/
  | nopF (x : Nibble) (nn : Byte)
  deriving DecidableEq, Repr

end Sys2Proof
end

