-- ==== Sys2Proof/WellFormed.lean ====
section
/-! DEFINITION. Which instruction terms stand for a word: every operand of the set's instructions is
bounded by its type, so only the four no-op rows have a check, that their second dispatch key matches
no other row of their group (R107). -/

namespace Sys2Proof

/-- The low bytes that group 0 gives an instruction (R106, R107). -/
def group0Keys : List Byte := [0xE0, 0xEE]

/-- The low nibbles that group 8 gives an instruction (R106, R107). -/
def group8Keys : List Nibble := [0x0, 0x1, 0x2, 0x3, 0x4, 0x5, 0x6, 0x7, 0xE]

/-- The low bytes that group E gives an instruction (R106, R107). -/
def groupEKeys : List Byte := [0x9E, 0xA1]

/-- The low bytes that group F gives an instruction (R106, R107). -/
def groupFKeys : List Byte := [0x07, 0x0A, 0x15, 0x18, 0x1E, 0x29, 0x33, 0x55, 0x65]

/-- The term stands for a word: a no-op's second key is none of its group's keys (R107). -/
def Instr.wellFormed : Instr → Bool
  | .sys nnn => !group0Keys.contains (nnn.setWidth 8)
  | .nop8 _ _ n => !group8Keys.contains n
  | .nopE _ nn => !groupEKeys.contains nn
  | .nopF _ nn => !groupFKeys.contains nn
  | .cls _ | .ret _ | .jp _ | .call _ | .seImm _ _ | .sneImm _ _ | .seReg _ _ _
  | .ldImm _ _ | .addImm _ _ | .ldReg _ _ | .orReg _ _ | .andReg _ _ | .xorReg _ _
  | .addReg _ _ | .subReg _ _ | .shr _ _ | .subnReg _ _ | .shl _ _ | .sneReg _ _ _
  | .ldI _ | .jpV0 _ | .rnd _ _ | .drw _ _ _ | .skp _ | .sknp _ | .ldVxDt _ | .ldVxK _
  | .ldDtVx _ | .ldStVx _ | .addI _ | .ldF _ | .ldB _ | .ldMemVx _ | .ldVxMem _ => true

end Sys2Proof
end

