-- ==== Sys2Proof/Decode.lean ====
section
/-! DEFINITION. Decoding (R100 to R110): the fields of a word, the two-key dispatch, the decoder (total
on all 65536 words, R108), the decoder of bytes as they lie in memory (big-endian, R78), the encoder
written from the same opcode map, and the map's mask and match columns. -/

namespace Sys2Proof

/-! ### Fields (R101) -/

/-- `op = w[15:12]`, the dispatch group (R101, R104). -/
def fieldOp (w : Word) : Nibble := w.extractLsb' 12 4

/-- `X = w[11:8]` (R101). -/
def fieldX (w : Word) : Nibble := w.extractLsb' 8 4

/-- `Y = w[7:4]` (R101). -/
def fieldY (w : Word) : Nibble := w.extractLsb' 4 4

/-- `N = w[3:0]` (R101). -/
def fieldN (w : Word) : Nibble := w.extractLsb' 0 4

/-- `NN = w[7:0]` (R101). -/
def fieldNN (w : Word) : Byte := w.extractLsb' 0 8

/-- `NNN = w[11:0]` (R101). -/
def fieldNNN (w : Word) : Addr12 := w.extractLsb' 0 12

/-! ### Dispatch (R104 to R107) -/

/-- Group 0, by the low byte; bits 11:8 are not examined (R104, R107). -/
def decodeGroup0 (w : Word) : Instr :=
  if fieldNN w = 0xE0 then .cls (fieldX w)
  else if fieldNN w = 0xEE then .ret (fieldX w)
  else .sys (fieldNNN w)

/-- Group 8, by the low nibble (R104, R106, R107). -/
def decodeGroup8 (w : Word) : Instr :=
  if fieldN w = 0x0 then .ldReg (fieldX w) (fieldY w)
  else if fieldN w = 0x1 then .orReg (fieldX w) (fieldY w)
  else if fieldN w = 0x2 then .andReg (fieldX w) (fieldY w)
  else if fieldN w = 0x3 then .xorReg (fieldX w) (fieldY w)
  else if fieldN w = 0x4 then .addReg (fieldX w) (fieldY w)
  else if fieldN w = 0x5 then .subReg (fieldX w) (fieldY w)
  else if fieldN w = 0x6 then .shr (fieldX w) (fieldY w)
  else if fieldN w = 0x7 then .subnReg (fieldX w) (fieldY w)
  else if fieldN w = 0xE then .shl (fieldX w) (fieldY w)
  else .nop8 (fieldX w) (fieldY w) (fieldN w)

/-- Group E, by the low byte (R104, R106, R107). -/
def decodeGroupE (w : Word) : Instr :=
  if fieldNN w = 0x9E then .skp (fieldX w)
  else if fieldNN w = 0xA1 then .sknp (fieldX w)
  else .nopE (fieldX w) (fieldNN w)

/-- Group F, by the low byte (R104, R106, R107). -/
def decodeGroupF (w : Word) : Instr :=
  if fieldNN w = 0x07 then .ldVxDt (fieldX w)
  else if fieldNN w = 0x0A then .ldVxK (fieldX w)
  else if fieldNN w = 0x15 then .ldDtVx (fieldX w)
  else if fieldNN w = 0x18 then .ldStVx (fieldX w)
  else if fieldNN w = 0x1E then .addI (fieldX w)
  else if fieldNN w = 0x29 then .ldF (fieldX w)
  else if fieldNN w = 0x33 then .ldB (fieldX w)
  else if fieldNN w = 0x55 then .ldMemVx (fieldX w)
  else if fieldNN w = 0x65 then .ldVxMem (fieldX w)
  else .nopF (fieldX w) (fieldNN w)

/-- The decoder: the high nibble selects the group (R104), a group of one instruction takes every
word of it (R105), and no word is refused (R108). It reads nothing but the word (R110, R132). -/
def decode (w : Word) : Instr :=
  if fieldOp w = 0x0 then decodeGroup0 w
  else if fieldOp w = 0x1 then .jp (fieldNNN w)
  else if fieldOp w = 0x2 then .call (fieldNNN w)
  else if fieldOp w = 0x3 then .seImm (fieldX w) (fieldNN w)
  else if fieldOp w = 0x4 then .sneImm (fieldX w) (fieldNN w)
  else if fieldOp w = 0x5 then .seReg (fieldX w) (fieldY w) (fieldN w)
  else if fieldOp w = 0x6 then .ldImm (fieldX w) (fieldNN w)
  else if fieldOp w = 0x7 then .addImm (fieldX w) (fieldNN w)
  else if fieldOp w = 0x8 then decodeGroup8 w
  else if fieldOp w = 0x9 then .sneReg (fieldX w) (fieldY w) (fieldN w)
  else if fieldOp w = 0xA then .ldI (fieldNNN w)
  else if fieldOp w = 0xB then .jpV0 (fieldNNN w)
  else if fieldOp w = 0xC then .rnd (fieldX w) (fieldNN w)
  else if fieldOp w = 0xD then .drw (fieldX w) (fieldY w) (fieldN w)
  else if fieldOp w = 0xE then decodeGroupE w
  else decodeGroupF w

/-- Two bytes as they lie in memory, the first in bits 15:8 (R78). -/
def bigEndian (hi lo : Byte) : Word := hi ++ lo

/-- The byte of a word that lies at the lower address (R78). -/
def highByte (w : Word) : Byte := w.extractLsb' 8 8

/-- The byte of a word that lies at the higher address (R78). -/
def lowByte (w : Word) : Byte := w.extractLsb' 0 8

/-- Why bytes are no instruction: fewer than the two bytes every instruction has (R15, R109). No
other reason exists (R108). Safe: nothing is decoded from half a word. -/
inductive DecodeError where
  /-- Raised by `decodeBytes` on fewer than two bytes. -/
  | truncated
  deriving DecidableEq, Repr

/-- The instruction at the head of a list of bytes, and the bytes after it (R78, R109). -/
def decodeBytes : List Byte → Except DecodeError (Instr × List Byte)
  | hi :: lo :: rest => .ok (decode (bigEndian hi lo), rest)
  | [_] => .error .truncated
  | [] => .error .truncated

/-! ### Encoding, from the opcode map of R106 and R107 -/

/-- A word of group `op` with the fields X, Y and N (R101). -/
def wordXYN (op x y n : Nibble) : Word := op ++ x ++ y ++ n

/-- A word of group `op` with the fields X and NN (R101). -/
def wordXNN (op x : Nibble) (nn : Byte) : Word := op ++ x ++ nn

/-- A word of group `op` with the field NNN (R101). -/
def wordNNN (op : Nibble) (nnn : Addr12) : Word := op ++ nnn

/-- The word of a decoded instruction (R106, R107). -/
def encode : Instr → Word
  | .cls u => wordXNN 0x0 u 0xE0
  | .ret u => wordXNN 0x0 u 0xEE
  | .jp nnn => wordNNN 0x1 nnn
  | .call nnn => wordNNN 0x2 nnn
  | .seImm x nn => wordXNN 0x3 x nn
  | .sneImm x nn => wordXNN 0x4 x nn
  | .seReg x y u => wordXYN 0x5 x y u
  | .ldImm x nn => wordXNN 0x6 x nn
  | .addImm x nn => wordXNN 0x7 x nn
  | .ldReg x y => wordXYN 0x8 x y 0x0
  | .orReg x y => wordXYN 0x8 x y 0x1
  | .andReg x y => wordXYN 0x8 x y 0x2
  | .xorReg x y => wordXYN 0x8 x y 0x3
  | .addReg x y => wordXYN 0x8 x y 0x4
  | .subReg x y => wordXYN 0x8 x y 0x5
  | .shr x y => wordXYN 0x8 x y 0x6
  | .subnReg x y => wordXYN 0x8 x y 0x7
  | .shl x y => wordXYN 0x8 x y 0xE
  | .sneReg x y u => wordXYN 0x9 x y u
  | .ldI nnn => wordNNN 0xA nnn
  | .jpV0 nnn => wordNNN 0xB nnn
  | .rnd x nn => wordXNN 0xC x nn
  | .drw x y n => wordXYN 0xD x y n
  | .skp x => wordXNN 0xE x 0x9E
  | .sknp x => wordXNN 0xE x 0xA1
  | .ldVxDt x => wordXNN 0xF x 0x07
  | .ldVxK x => wordXNN 0xF x 0x0A
  | .ldDtVx x => wordXNN 0xF x 0x15
  | .ldStVx x => wordXNN 0xF x 0x18
  | .addI x => wordXNN 0xF x 0x1E
  | .ldF x => wordXNN 0xF x 0x29
  | .ldB x => wordXNN 0xF x 0x33
  | .ldMemVx x => wordXNN 0xF x 0x55
  | .ldVxMem x => wordXNN 0xF x 0x65
  | .sys nnn => wordNNN 0x0 nnn
  | .nop8 x y n => wordXYN 0x8 x y n
  | .nopE x nn => wordXNN 0xE x nn
  | .nopF x nn => wordXNN 0xF x nn

/-- The instruction's bytes as they lie in memory (R78). -/
def encodeBytes (i : Instr) : List Byte := [highByte (encode i), lowByte (encode i)]

/-! ### The mask and match columns of R106 -/

/-- The bits an instruction's row of the opcode map fixes (R106; R107 for the no-op rows). -/
def Instr.rowMask : Instr → Word
  | .cls _ | .ret _ | .skp _ | .sknp _ | .ldVxDt _ | .ldVxK _ | .ldDtVx _ | .ldStVx _
  | .addI _ | .ldF _ | .ldB _ | .ldMemVx _ | .ldVxMem _ => 0xF0FF
  | .ldReg _ _ | .orReg _ _ | .andReg _ _ | .xorReg _ _ | .addReg _ _ | .subReg _ _
  | .shr _ _ | .subnReg _ _ | .shl _ _ => 0xF00F
  | .jp _ | .call _ | .seImm _ _ | .sneImm _ _ | .seReg _ _ _ | .ldImm _ _ | .addImm _ _
  | .sneReg _ _ _ | .ldI _ | .jpV0 _ | .rnd _ _ | .drw _ _ _ | .sys _ | .nop8 _ _ _
  | .nopE _ _ | .nopF _ _ => 0xF000

/-- What the fixed bits of an instruction's row hold (R106; R107 for the no-op rows). -/
def Instr.rowMatch : Instr → Word
  | .cls _ => 0x00E0
  | .ret _ => 0x00EE
  | .jp _ => 0x1000
  | .call _ => 0x2000
  | .seImm _ _ => 0x3000
  | .sneImm _ _ => 0x4000
  | .seReg _ _ _ => 0x5000
  | .ldImm _ _ => 0x6000
  | .addImm _ _ => 0x7000
  | .ldReg _ _ => 0x8000
  | .orReg _ _ => 0x8001
  | .andReg _ _ => 0x8002
  | .xorReg _ _ => 0x8003
  | .addReg _ _ => 0x8004
  | .subReg _ _ => 0x8005
  | .shr _ _ => 0x8006
  | .subnReg _ _ => 0x8007
  | .shl _ _ => 0x800E
  | .sneReg _ _ _ => 0x9000
  | .ldI _ => 0xA000
  | .jpV0 _ => 0xB000
  | .rnd _ _ => 0xC000
  | .drw _ _ _ => 0xD000
  | .skp _ => 0xE09E
  | .sknp _ => 0xE0A1
  | .ldVxDt _ => 0xF007
  | .ldVxK _ => 0xF00A
  | .ldDtVx _ => 0xF015
  | .ldStVx _ => 0xF018
  | .addI _ => 0xF01E
  | .ldF _ => 0xF029
  | .ldB _ => 0xF033
  | .ldMemVx _ => 0xF055
  | .ldVxMem _ => 0xF065
  | .sys _ => 0x0000
  | .nop8 _ _ _ => 0x8000
  | .nopE _ _ => 0xE000
  | .nopF _ _ => 0xF000

/-! ### The host's view of the decoder -/

/-- The word whose bits, numbered as spec/opcode_table.json numbers them, are the low `nbits` bits
of `w`; the bits above `nbits` are zero. -/
def tableWord (nbits w : Nat) : Word := BitVec.ofNat 16 (w % 2 ^ nbits)

/-- What the decoder reads from an instruction of `nbits` bits `w`: the word's two bytes, the high
one first (R78), given to `decodeBytes`. -/
def decodeTableWord (nbits w : Nat) : Option Instr :=
  match decodeBytes [highByte (tableWord nbits w), lowByte (tableWord nbits w)] with
  | .ok (i, _) => some i
  | .error _ => none

end Sys2Proof
end

