-- ==== Sys2Proof/Config.lean ====
section
/-! DEFINITION. What is fixed for the machine (the parameters of 00_scope.md section 4 that no rule
varies) and the one value the spec leaves free, the random byte. -/

namespace Sys2Proof.Config

/-- `MEM_SIZE` (R8). -/
def memSize : Nat := 4096

/-- `STACK_DEPTH` (R12, 90_conflicts.md C1). -/
def stackDepth : Nat := 16

/-- `PROG_BASE`, where the program region starts and PC is at reset (R14, R354). -/
def progBase : Nat := 0x200

/-- `NKEYS` (R16). -/
def numKeys : Nat := 16

/-- The longest ROM image that fits (R87). -/
def maxRom : Nat := memSize - progBase

/-- The `n`-th random byte drawn by CXNN, a FREE VALUE: the spec states no distribution and no
relation between two draws (R26, R205), so nothing constrains it. Log entry 2. -/
opaque rand : Nat → BitVec 8

end Sys2Proof.Config
end

