-- ==== Sys2Proof/Machine/State.lean ====
section
/-! DEFINITION. The state of the core as plain data (10_state.md, R30 to R56), the reasons a step can
stop, and the state after reset (R55). Two fields are the model's own: `draws`, which numbers the
free random bytes (log entry 2), and `schedule`, the environment's events that have not yet been
taken (log entry 1). -/

namespace Sys2Proof.Machine

/-! ### Reasons a step stops -/

/-- Why `step` has no next state. Safe: both are the spec's final modes, in which no engine step is
enabled and nothing changes (R138); the state stays what it was. Log entry 3. A fault of the SPEC
(R310) is none of these: it is taken, as a next state in mode HALTED (`State.raise`). -/
inductive Fault where
  /-- Raised by `step` in mode HALTED, and by nothing else (R136, R138). Safe. -/
  | halted
  /-- Raised by `step` in mode STOPPED, and by nothing else (R137, R138). Safe. -/
  | stopped
  deriving DecidableEq, Repr

/-- Why an instruction is refused. -/
inductive Refusal where
  /-- An instruction without a meaning, by its mnemonic. Safe. No arm of `exec` answers it: every
  instruction of the table has its meaning. -/
  | notModelled (mnemonic : String)
  deriving DecidableEq, Repr

/-! ### The parts of the state -/

/-- The engine mode (R50). -/
inductive Mode where
  /-- The next engine step fetches and executes the instruction at PC. -/
  | run
  /-- FX0A is waiting; `x` is its destination register (R284). -/
  | waitKey (x : Nibble)
  /-- A fault ended the run (R320). -/
  | halted
  /-- The quit signal ended the run (R137). -/
  | stopped
  deriving DecidableEq, Repr

/-- The fault taxonomy with `none` for a run without a fault (R310). -/
inductive FaultKind where
  | none
  | addressOutOfRange
  | registerIndexOutOfRange
  | keyIndexOutOfRange
  | valueOutOfRange
  | stackUnderflow
  | stackOverflow
  | romLoadError
  | romTooLarge
  deriving DecidableEq, Repr

/-- A fault `F(info)` that a check raises, before the engine takes it (R310, R320). -/
structure Condition where
  kind : FaultKind
  info : Nat
  deriving DecidableEq, Repr

/-- `DISPLAY_MODE` (R13). -/
inductive DisplayMode where
  /-- 64 columns, 32 rows. -/
  | chip8
  /-- 128 columns, 64 rows. -/
  | schip
  deriving DecidableEq, Repr

/-- `H` rows of `W` pixels, row-major, origin top-left; `true` is lit (R47). -/
abbrev Grid (W H : Nat) := Vector (Vector Bool W) H

/-- The framebuffer of either display mode. The constructor IS the parameter `DISPLAY_MODE`, which
no instruction changes (R13, R47; log entry 6). -/
inductive Framebuffer where
  | chip8 (g : Grid 64 32)
  | schip (g : Grid 128 64)
  deriving DecidableEq, Repr

/-- An environment event at a cycle boundary (R5, R135). -/
inductive Event where
  /-- The 60 Hz timer strobe (R295). -/
  | tick
  /-- Key `k` is pressed (R285, R290). -/
  | keyPress (k : Nibble)
  /-- Key `k` is released (R290). -/
  | keyRelease (k : Nibble)
  /-- The quit signal (R137). -/
  | quit
  /-- The renderer samples the framebuffer (R268). -/
  | readFrame
  deriving DecidableEq, Repr

/-- Memory as the listed (address, byte) pairs; an address not listed reads as its reset content
(`resetByte` in Machine/Memory.lean; canonical form: `Memory.wf`). -/
abbrev Memory := List Host.Cell

/-! ### The state -/

/-- Everything the spec gives the machine (R30 to R52), and the model's own `draws` and `schedule`. -/
structure State where
  /-- `V[0x0..0xF]`; `V[0xF]` is VF (R30, R31). -/
  v : Vector Byte 16
  /-- The index register (R34). -/
  i : Word
  /-- The program counter (R36). -/
  pc : Word
  /-- `STACK[0..15]` (R40). -/
  stack : Vector Word 16
  /-- `SP`, how many entries are in use, 0 to 16 (R40). -/
  sp : Fin 17
  /-- The delay timer (R44). -/
  dt : Byte
  /-- The sound timer (R45). -/
  st : Byte
  /-- The framebuffer, and with it `DISPLAY_MODE` (R13, R47). -/
  fb : Framebuffer
  /-- `KEY[0x0..0xF]`, true while pressed (R49). -/
  keys : Vector Bool 16
  /-- The engine mode (R50). -/
  mode : Mode
  /-- The fault record's kind (R51). -/
  faultKind : FaultKind
  /-- The fault record's info (R51). -/
  faultInfo : Nat
  /-- `MEM[0..4095]` (R52). -/
  mem : Memory
  /-- The model's own: how many random bytes have been drawn (log entry 2). -/
  draws : Nat
  /-- The model's own: the events of the coming cycle boundaries, the next boundary's first
  (log entry 1). -/
  schedule : List (List Event)
  deriving DecidableEq, Repr

/-- An all-false framebuffer of a display mode (R13, R55). -/
def Framebuffer.blank : DisplayMode → Framebuffer
  | .chip8 => .chip8 (Vector.replicate 32 (Vector.replicate 64 false))
  | .schip => .schip (Vector.replicate 64 (Vector.replicate 128 false))

/-- The machine right after reset, in the default display mode and with no ROM byte loaded (R55):
memory lists nothing, so it reads as the font and zeros. `draws` and `schedule` are the model's own
(log entries 1 and 2). -/
def State.reset : State where
  v := Vector.replicate 16 0
  i := 0
  pc := BitVec.ofNat 16 Config.progBase
  stack := Vector.replicate 16 0
  sp := 0
  dt := 0
  st := 0
  fb := Framebuffer.blank .chip8
  keys := Vector.replicate 16 false
  mode := .run
  faultKind := .none
  faultInfo := 0
  mem := []
  draws := 0
  schedule := []

end Sys2Proof.Machine
end

