-- ==== Sys2Proof/Machine/Memory.lean ====
section
/-! DEFINITION. Memory as data (20_memory.md): what an address holds at reset (font glyphs, else zero),
reading and writing one cell of the canonical list, and the canonical form. The address decoder's
check against 4096 stands in Machine/Ops.lean. -/

namespace Sys2Proof.Machine

/-- `FONT_BASE` (R14, decision D4; log entry 7). -/
def fontBase : Nat := 0x050

/-- The 16 glyphs of 5 bytes, digit 0 first (R83, decision D5; log entry 8). -/
def fontBytes : List Byte :=
  [0xF0, 0x90, 0x90, 0x90, 0xF0,  0x20, 0x60, 0x20, 0x20, 0x70,
   0xF0, 0x10, 0xF0, 0x80, 0xF0,  0xF0, 0x10, 0xF0, 0x10, 0xF0,
   0x90, 0x90, 0xF0, 0x10, 0x10,  0xF0, 0x80, 0xF0, 0x10, 0xF0,
   0xF0, 0x80, 0xF0, 0x90, 0xF0,  0xF0, 0x10, 0x20, 0x40, 0x40] ++
  [0xF0, 0x90, 0xF0, 0x90, 0xF0,  0xF0, 0x90, 0xF0, 0x10, 0xF0,
   0xF0, 0x90, 0xF0, 0x90, 0x90,  0xE0, 0x90, 0xE0, 0x90, 0xE0,
   0xF0, 0x80, 0x80, 0x80, 0xF0,  0xE0, 0x90, 0x90, 0x90, 0xE0,
   0xF0, 0x80, 0xF0, 0x80, 0xF0,  0xF0, 0x80, 0xF0, 0x80, 0x80]

/-- What an address holds at reset, before a ROM is loaded, and so what an unlisted address reads
as: a font byte in the font region, 0x00 elsewhere (R55, R85; log entry 9). -/
def resetByte (a : Nat) : Byte :=
  if fontBase ≤ a then fontBytes.getD (a - fontBase) 0 else 0

/-- `MEM[a]`: the listed byte, or the reset content. -/
def Memory.get : Memory → Nat → Byte
  | [], a => resetByte a
  | (k, b) :: m, a => if a = k then b else Memory.get m a

/-- List the byte `b` at `a` in front of `m`, unless an unlisted `a` reads as `b` already. -/
def Memory.cons (a : Nat) (b : Byte) (m : Memory) : Memory :=
  if b = resetByte a then m else (a, b) :: m

/-- `MEM[a] <- b`, in canonical form. -/
def Memory.set : Memory → Nat → Byte → Memory
  | [], a, b => Memory.cons a b []
  | (k, c) :: m, a, b =>
    if a < k then Memory.cons a b ((k, c) :: m)
    else if a = k then Memory.cons a b m
    else (k, c) :: Memory.set m a b

/-- Consecutive writes from `a` upward (R75, R77). -/
def Memory.setAll : Memory → Nat → List Byte → Memory
  | m, _, [] => m
  | m, a, b :: bs => Memory.setAll (Memory.set m a b) (a + 1) bs

/-- Canonical from address `lo` on: addresses strictly rising and below 4096, no entry equal to what
its address reads as unlisted. -/
def Memory.wfFrom (lo : Nat) : Memory → Bool
  | [] => true
  | (a, b) :: m =>
    decide (lo ≤ a) && decide (a < Config.memSize) && decide (b ≠ resetByte a) &&
      Memory.wfFrom (a + 1) m

/-- The canonical form of memory, so that equal memories are equal data. -/
def Memory.wf (m : Memory) : Bool := Memory.wfFrom 0 m

end Sys2Proof.Machine
end

