-- ==== Sys2Proof/Machine/Ops.lean ====
section
/-! DEFINITION. The named operations over the state: the register file, taking a fault (R320), the
address decoder and its one-byte accesses (R71 to R74), fetch (R80), the checked writes of I and PC
(R35), the call stack (R41 to R43), the keypad's test (R291), and the loops that move several bytes
with no rollback (R77). An operation with a check answers a `Condition` where the check fails;
`conclude` takes it. -/

namespace Sys2Proof.Machine

/-- What a step or a meaning answers. -/
abbrev Result := Host.Outcome State Fault Refusal

/-! ### Register file (R30 to R33) -/

/-- `V[x]` (R29, R30). -/
def State.reg (s : State) (x : Nibble) : Byte := s.v[x.toNat]'x.isLt

/-- `V[x] <- b` (R29, R30). -/
def State.setReg (s : State) (x : Nibble) (b : Byte) : State :=
  { s with v := s.v.set x.toNat b x.isLt }

/-- The index of VF (R31). -/
def flagReg : Nibble := 0xF

/-- `V[0], ..., V[x]` by index, V0 first: the registers FX55 and FX65 move (R224, R225). -/
def regsUpTo (x : Nibble) : List Nibble := (List.range (x.toNat + 1)).map (BitVec.ofNat 4)

/-- The register file's own read by a natural index (R33). No instruction can present an index above
15 (R24); log entry 16. This is the check alone: `State.regFileRead` takes its fault. -/
def State.readRegAt (s : State) (n : Nat) : Except Condition Byte :=
  if n < Config.numKeys then .ok (s.reg (BitVec.ofNat 4 n))
  else .error ⟨.registerIndexOutOfRange, n⟩

/-- The register file's own write by a natural index; the value wraps modulo 256 (R32, R33,
90_conflicts.md C2). Log entry 16. This is the check alone: `State.regFileWrite` takes its fault. -/
def State.writeRegAt (s : State) (n value : Nat) : Except Condition State :=
  if n < Config.numKeys then .ok (s.setReg (BitVec.ofNat 4 n) (BitVec.ofNat 8 value))
  else .error ⟨.registerIndexOutOfRange, n⟩

/-! ### Taking a fault (R320 to R325) -/

/-- Take the fault `c`: write the fault record and halt. PC stays where it is, and writes made
before stay (R320, R321). There is no handler and no saved state (R325). -/
def State.raise (s : State) (c : Condition) : State :=
  { s with faultKind := c.kind, faultInfo := c.info, mode := .halted }

/-- End an instruction whose last check answers `r`: the state it gives, or the fault taken in `s`,
the state with every write made before the check (R320, R321). -/
def conclude (s : State) : Except Condition State → Result
  | .ok t => .next t
  | .error c => .next (s.raise c)

/-- End an instruction after a loop of accesses that reached `s` and met the fault `c?` there, if
any; `k` is the rest of the instruction where none was met (R77, R321). -/
def concludeLoop (k : State → Result) : State × Option Condition → Result
  | (s, none) => k s
  | (s, some c) => .next (s.raise c)

/-! ### Address decoder (R71 to R74) -/

/-- `MemRead(a, 1)` (R73). -/
def State.memRead (s : State) (a : Nat) : Except Condition Byte :=
  if a < Config.memSize then .ok (s.mem.get a) else .error ⟨.addressOutOfRange, a⟩

/-- `MemWrite(a, 1, b)` (R74). -/
def State.memWrite (s : State) (a : Nat) (b : Byte) : Except Condition State :=
  if a < Config.memSize then .ok { s with mem := s.mem.set a b }
  else .error ⟨.addressOutOfRange, a⟩

/-- `MemWrite(a + k, 1, bs[k])` for ascending `k`, up to the first that faults (R77): the state
reached, and the fault. -/
def State.storeBytes : State → Nat → List Byte → State × Option Condition
  | s, _, [] => (s, none)
  | s, a, b :: bs =>
    match s.memWrite a b with
    | .ok t => t.storeBytes (a + 1) bs
    | .error c => (s, some c)

/-- `V[k] <- MemRead(a + k, 1)` for the listed registers in order, up to the first read that faults
(R77, R225): the state reached, and the fault. -/
def State.loadRegs : State → Nat → List Nibble → State × Option Condition
  | s, _, [] => (s, none)
  | s, a, x :: xs =>
    match s.memRead a with
    | .ok b => (s.setReg x b).loadRegs (a + 1) xs
    | .error c => (s, some c)

/-- `n` bytes from `a` upward, or the first fault; nothing is written (R77, R252). -/
def State.readBytes (s : State) : Nat → Nat → Except Condition (List Byte)
  | _, 0 => .ok []
  | a, n + 1 =>
    match s.memRead a with
    | .error c => .error c
    | .ok b =>
      match s.readBytes (a + 1) n with
      | .error c => .error c
      | .ok bs => .ok (b :: bs)

/-- `Fetch()`: the byte at PC, then the byte at PC + 1, big-endian; no alignment (R78 to R80). -/
def State.fetch (s : State) : Except Condition Word :=
  match s.memRead s.pc.toNat with
  | .error c => .error c
  | .ok hi =>
    match s.memRead (s.pc.toNat + 1) with
    | .error c => .error c
    | .ok lo => .ok (bigEndian hi lo)

/-! ### Writes of I and PC (R35 to R38, 90_conflicts.md C3) -/

/-- The largest value I, PC and a stack entry hold (R10, R40). -/
def wordMax : Nat := 0xFFFF

/-- `I <- n`, or `ValueOutOfRange(n)` where `n` does not fit 16 bits (R35). -/
def State.writeI (s : State) (n : Nat) : Except Condition State :=
  if n ≤ wordMax then .ok { s with i := BitVec.ofNat 16 n } else .error ⟨.valueOutOfRange, n⟩

/-- `PC <- n`, or `ValueOutOfRange(n)` where `n` does not fit 16 bits (R35, 90_conflicts.md C3). No
fetched instruction presents such a value (R38); log entry 5. -/
def State.writePc (s : State) (n : Nat) : Except Condition State :=
  if n ≤ wordMax then .ok { s with pc := BitVec.ofNat 16 n } else .error ⟨.valueOutOfRange, n⟩

/-- `NEXT`, as a natural number (R133). -/
def State.nextPc (s : State) : Nat := s.pc.toNat + 2

/-- Where a taken skip goes (R153). -/
def State.skipPc (s : State) : Nat := s.pc.toNat + 4

/-- `PC <- NEXT`, the default end of an instruction (R36, R134). -/
def State.advance (s : State) : Result := conclude s (s.writePc s.nextPc)

/-- The end of a skip: `PC + 4` where its condition holds, else `NEXT` (R153). -/
def State.skipIf (s : State) (taken : Bool) : Result :=
  conclude s (s.writePc (if taken then s.skipPc else s.nextPc))

/-- An explicit target of 16 bits, in place of the default advance (R36). -/
def State.jump (s : State) (target : Word) : State := { s with pc := target }

/-! ### Call stack (R40 to R43) -/

/-- `push(n)` (R41); a value above 16 bits, which no fetched CALL presents (R38), is
`ValueOutOfRange(n)` (log entry 5). -/
def State.push (s : State) (n : Nat) : Except Condition State :=
  if h : s.sp.val < Config.stackDepth then
    if n ≤ wordMax then
      .ok { s with
        stack := s.stack.set s.sp.val (BitVec.ofNat 16 n) h
        sp := ⟨s.sp.val + 1, Nat.succ_lt_succ h⟩ }
    else .error ⟨.valueOutOfRange, n⟩
  else .error ⟨.stackOverflow, s.pc.toNat⟩

/-- `STACK[n]` for an index in range, 0 for any other (R40). -/
def State.stackEntry (s : State) (n : Nat) : Word := s.stack.getD n 0

/-- `pop()`: the top entry and the state with one entry fewer (R42). -/
def State.pop (s : State) : Except Condition (Word × State) :=
  if s.sp.val = 0 then .error ⟨.stackUnderflow, s.pc.toNat⟩
  else .ok (s.stackEntry (s.sp.val - 1),
    { s with sp := ⟨s.sp.val - 1, Nat.lt_of_le_of_lt (Nat.sub_le _ _) s.sp.isLt⟩ })

/-- `peek`: the top entry; no instruction uses it (R43, log entry 16). This is the check
alone: `State.stackPeek` takes its fault. -/
def State.peek (s : State) : Except Condition Word :=
  if s.sp.val = 0 then .error ⟨.stackUnderflow, s.pc.toNat⟩
  else .ok (s.stackEntry (s.sp.val - 1))

/-! ### Keypad (R49, R290, R291) -/

/-- `KEY[k]` (R49). -/
def State.key (s : State) (k : Nibble) : Bool := s.keys[k.toNat]'k.isLt

/-- `KEY[k] <- down` (R290). -/
def State.setKey (s : State) (k : Nibble) (down : Bool) : State :=
  { s with keys := s.keys.set k.toNat down k.isLt }

/-- `isPressed(k)` for a natural `k`: `KeyIndexOutOfRange(k)` above 15, never masked (R291,
decision D34). -/
def State.isPressed (s : State) (k : Nat) : Except Condition Bool :=
  if k < Config.numKeys then .ok (s.key (BitVec.ofNat 4 k)) else .error ⟨.keyIndexOutOfRange, k⟩

end Sys2Proof.Machine
end

