-- ==== Sys2Proof/Machine/Flags.lean ====
section
/-! DEFINITION. Every flag the spec computes, each 0 or 1 in VF (R31, R193): carry, no-borrow, the bit
shifted out, the collision; and the order of the two writes, result first and flag second (R192).
Every comparison is of unsigned values (R29, R191). -/

namespace Sys2Proof.Machine

/-- A flag as VF holds it (R193). -/
def flagByte (f : Bool) : Byte := if f then 1 else 0

/-- Carry out of `a + b`: the exact sum exceeds 255 (R186). -/
def carryOut (a b : Byte) : Bool := decide (a.toNat + b.toNat > 255)

/-- No borrow in `a - b`: minuend ≥ subtrahend (R187, R189). -/
def noBorrow (a b : Byte) : Bool := decide (a.toNat ≥ b.toNat)

/-- The bit a right shift drops (R188). -/
def shiftedOutRight (a : Byte) : Bool := a.getLsbD 0

/-- The bit a left shift drops (R190). -/
def shiftedOutLeft (a : Byte) : Bool := a.getLsbD 7

/-- `VF <- f` (R31). -/
def State.setFlag (s : State) (f : Bool) : State := s.setReg flagReg (flagByte f)

/-- `V[x] <- r`, then `VF <- f`, so that VF ends with the flag also when `x = F` (R192). -/
def State.setRegFlag (s : State) (x : Nibble) (r : Byte) (f : Bool) : State :=
  (s.setReg x r).setFlag f

end Sys2Proof.Machine
end

