-- ==== Sys2Proof/Machine/Operands.lean ====
section
/-! DEFINITION. The operand forms: zero-extended immediates (R102), the effective address at I (R76),
the sprite's coordinates (R252), the key index (R280), the jump-with-offset target (R158), the decimal
digits of FX33 (R223), and the glyph address (R222). Nothing in this set is sign-extended or scaled (R29, R102). -/

namespace Sys2Proof.Machine

/-- `zext_16(NNN)`, a 12-bit target or address (R102). -/
def addrOperand (nnn : Addr12) : Word := nnn.setWidth 16

/-- `I` as a base address, a natural number that is not reduced (R76). -/
def State.base (s : State) : Nat := s.i.toNat

/-- `NNN + V[0]`, a natural sum without wrap (R158, decision D12). -/
def State.offsetTarget (s : State) (nnn : Addr12) : Nat := nnn.toNat + (s.reg 0x0).toNat

/-- `I + V[x]`, a natural sum (R221). -/
def State.indexSum (s : State) (x : Nibble) : Nat := s.i.toNat + (s.reg x).toNat

/-- A register's value as a natural number: a key index, unmasked (R280, decision D34), or a
sprite's column or row (R252). -/
def State.regNat (s : State) (x : Nibble) : Nat := (s.reg x).toNat

/-- Hundreds, tens, ones of a byte, the order FX33 stores them in (R223). -/
def decimalDigits (b : Byte) : List Byte :=
  [BitVec.ofNat 8 (b.toNat / 100), BitVec.ofNat 8 (b.toNat / 10 % 10), BitVec.ofNat 8 (b.toNat % 10)]

/-- The digit FX29 selects: the low nibble (R222, decision D19). -/
def glyphDigit (b : Byte) : Nat := b.toNat % 16

/-- `FONT_BASE + 5 * d` (R84, R222). -/
def glyphAddress (d : Nat) : Nat := fontBase + 5 * d

end Sys2Proof.Machine
end

