-- ==== Sys2Proof/Machine/Alu.lean ====
section
/-! DEFINITION. Register loads, arithmetic and logic (42_alu.md): results modulo 256 (R191), sources
read before any write, result before flag (R192). -/

namespace Sys2Proof.Machine

/-- LD Vx, NN (R180). -/
def execLdImm (x : Nibble) (nn : Byte) (s : State) : Result := (s.setReg x nn).advance

/-- ADD Vx, NN: no flag (R181, decision D13). -/
def execAddImm (x : Nibble) (nn : Byte) (s : State) : Result := (s.setReg x (s.reg x + nn)).advance

/-- LD Vx, Vy (R182). -/
def execLdReg (x y : Nibble) (s : State) : Result := (s.setReg x (s.reg y)).advance

/-- OR Vx, Vy: VF is not reset (R183, decision D14). -/
def execOrReg (x y : Nibble) (s : State) : Result := (s.setReg x (s.reg x ||| s.reg y)).advance

/-- AND Vx, Vy: VF is not reset (R184, decision D14). -/
def execAndReg (x y : Nibble) (s : State) : Result := (s.setReg x (s.reg x &&& s.reg y)).advance

/-- XOR Vx, Vy: VF is not reset (R185, decision D14). -/
def execXorReg (x y : Nibble) (s : State) : Result := (s.setReg x (s.reg x ^^^ s.reg y)).advance

/-- ADD Vx, Vy, the flag is the carry (R186). -/
def execAddReg (x y : Nibble) (s : State) : Result :=
  (s.setRegFlag x (s.reg x + s.reg y) (carryOut (s.reg x) (s.reg y))).advance

/-- SUB Vx, Vy, the flag is no-borrow (R187). -/
def execSubReg (x y : Nibble) (s : State) : Result :=
  (s.setRegFlag x (s.reg x - s.reg y) (noBorrow (s.reg x) (s.reg y))).advance

/-- SHR Vx, in place, the flag is the bit shifted out; Y is ignored (R188, decision D16). -/
def execShr (x : Nibble) (s : State) : Result :=
  (s.setRegFlag x (s.reg x >>> 1) (shiftedOutRight (s.reg x))).advance

/-- SUBN Vx, Vy, the flag is no-borrow of `V[y] - V[x]` (R189). -/
def execSubnReg (x y : Nibble) (s : State) : Result :=
  (s.setRegFlag x (s.reg y - s.reg x) (noBorrow (s.reg y) (s.reg x))).advance

/-- SHL Vx, in place, the flag is the bit shifted out; Y is ignored (R190, decision D16). -/
def execShl (x : Nibble) (s : State) : Result :=
  (s.setRegFlag x (s.reg x <<< 1) (shiftedOutLeft (s.reg x))).advance

/-- RND Vx, NN: the next free random byte, masked (R205; log entry 2). -/
def execRnd (x : Nibble) (nn : Byte) (s : State) : Result :=
  { s.setReg x (Config.rand s.draws &&& nn) with draws := s.draws + 1 }.advance

end Sys2Proof.Machine
end

