-- ==== Sys2Proof/Machine/Control.lean ====
section
/-! DEFINITION. Control transfer (41_control_flow.md): return, jump, call, the four conditional skips on
registers, the jump with offset. -/

namespace Sys2Proof.Machine

/-- RET: `PC <- pop()` (R150). -/
def execRet (s : State) : Result :=
  match s.pop with
  | .error c => .next (s.raise c)
  | .ok (target, t) => .next (t.jump target)

/-- JP NNN (R151). -/
def execJp (nnn : Addr12) (s : State) : Result := .next (s.jump (addrOperand nnn))

/-- CALL NNN: `push(NEXT)`, then the jump (R152). -/
def execCall (nnn : Addr12) (s : State) : Result :=
  match s.push s.nextPc with
  | .error c => .next (s.raise c)
  | .ok t => .next (t.jump (addrOperand nnn))

/-- SE Vx, NN (R154). -/
def execSeImm (x : Nibble) (nn : Byte) (s : State) : Result := s.skipIf (s.reg x == nn)

/-- SNE Vx, NN (R155). -/
def execSneImm (x : Nibble) (nn : Byte) (s : State) : Result := s.skipIf (s.reg x != nn)

/-- SE Vx, Vy (R156). -/
def execSeReg (x y : Nibble) (s : State) : Result := s.skipIf (s.reg x == s.reg y)

/-- SNE Vx, Vy (R157). -/
def execSneReg (x y : Nibble) (s : State) : Result := s.skipIf (s.reg x != s.reg y)

/-- JP V0, NNN (R158). -/
def execJpV0 (nnn : Addr12) (s : State) : Result := conclude s (s.writePc (s.offsetTarget nnn))

end Sys2Proof.Machine
end

