-- ==== Sys2Proof/Machine/Display.lean ====
section
/-! DEFINITION. The framebuffer's pixels and the sprite compositor `attachSprite`, loop for loop as
44_display.md R251 gives it: the origin wraps (R253), the body clips (R254), bit 7 is leftmost (R255),
pixels are XORed (R256), and any 1 to 0 transition is a collision (R257). -/

namespace Sys2Proof.Machine

/-- The pixel at row `r`, column `c`; false off the grid. -/
def Grid.pixel {W H : Nat} (g : Grid W H) (r c : Nat) : Bool :=
  if h : r < H ∧ c < W then (g[r]'h.1)[c]'h.2 else false

/-- The grid with the pixel at row `r`, column `c` inverted; off the grid nothing changes. -/
def Grid.flip {W H : Nat} (g : Grid W H) (r c : Nat) : Grid W H :=
  if h : r < H ∧ c < W then
    Vector.set g r (Vector.set (g[r]'h.1) c (!(g[r]'h.1)[c]'h.2) h.2) h.1
  else g

/-- One sprite bit at row `r`, column `c`, with the collision found so far: a column off the grid is
clipped, a 0 bit leaves its pixel, a 1 bit inverts it and collides with a lit one (R251). -/
def drawBit {W H : Nat} (r c : Nat) (bit : Bool) (p : Grid W H × Bool) : Grid W H × Bool :=
  if c ≥ W then p
  else if bit then (Grid.flip p.1 r c, p.2 || Grid.pixel p.1 r c)
  else p

/-- The bits of a sprite byte from `j = n - 1` down to 0, bit `j` at column `x0 + (7 - j)` (R251). -/
def drawBits {W H : Nat} (r x0 : Nat) (b : Byte) : Nat → Grid W H × Bool → Grid W H × Bool
  | 0, p => p
  | j + 1, p => drawBits r x0 b j (drawBit r (x0 + (7 - j)) (b.getLsbD j) p)

/-- One row of the sprite on row `r`; a row off the grid is clipped (R251, R254). -/
def drawRow {W H : Nat} (r x0 : Nat) (b : Byte) (p : Grid W H × Bool) : Grid W H × Bool :=
  if r ≥ H then p else drawBits r x0 b 8 p

/-- The rows of the sprite from row `r` downward (R251). -/
def drawRows {W H : Nat} (x0 : Nat) : Nat → List Byte → Grid W H × Bool → Grid W H × Bool
  | _, [], p => p
  | r, b :: bs, p => drawRows x0 (r + 1) bs (drawRow r x0 b p)

/-- `attachSprite(bytes, x, y)` on one grid: the grid after it and `collided` (R251, R253). -/
def Grid.attachSprite {W H : Nat} (g : Grid W H) (bytes : List Byte) (x y : Nat) : Grid W H × Bool :=
  drawRows (x % W) (y % H) bytes (g, false)

/-! ### Over either display mode -/

/-- `DISPLAY_MODE` (R13). -/
def Framebuffer.displayMode : Framebuffer → DisplayMode
  | .chip8 _ => .chip8
  | .schip _ => .schip

/-- `W` (R13). -/
def DisplayMode.width : DisplayMode → Nat
  | .chip8 => 64
  | .schip => 128

/-- `H` (R13). -/
def DisplayMode.height : DisplayMode → Nat
  | .chip8 => 32
  | .schip => 64

/-- `FB[r][c]`; false off the grid (R47). -/
def Framebuffer.pixel : Framebuffer → Nat → Nat → Bool
  | .chip8 g, r, c => Grid.pixel g r c
  | .schip g, r, c => Grid.pixel g r c

/-- `attachSprite(bytes, x, y)` in the framebuffer's own mode (R251, R259). -/
def Framebuffer.attachSprite : Framebuffer → List Byte → Nat → Nat → Framebuffer × Bool
  | .chip8 g, bytes, x, y =>
    (.chip8 (Grid.attachSprite g bytes x y).1, (Grid.attachSprite g bytes x y).2)
  | .schip g, bytes, x, y =>
    (.schip (Grid.attachSprite g bytes x y).1, (Grid.attachSprite g bytes x y).2)

/-- Every pixel false, in the same mode (R250). -/
def Framebuffer.clear (fb : Framebuffer) : Framebuffer := Framebuffer.blank fb.displayMode

/-- Whether a sprite of bytes `bytes` with origin `(x, y)` has a 1 bit on the pixel at row `r`, column
`c` of a `W x H` grid: row `r` holds sprite row `r - y0` and column `c` bit `7 - (c - x0)`, the origin
taken modulo the grid (R251, R253 to R255). The closed form of the compositor's loops. -/
def spriteCovers (W H : Nat) (bytes : List Byte) (x y r c : Nat) : Bool :=
  decide (r < H ∧ c < W ∧ y % H ≤ r ∧ x % W ≤ c ∧ c < x % W + 8) &&
    (bytes.getD (r - y % H) 0).getLsbD (7 - (c - x % W))

end Sys2Proof.Machine
end

