-- ==== Sys2Proof/Machine/Draw.lean ====
section
/-! DEFINITION. The framebuffer's two instructions, CLS and DRW (44_display.md). -/

namespace Sys2Proof.Machine

/-- CLS (R250). -/
def execCls (s : State) : Result := State.advance { s with fb := s.fb.clear }

/-- DRW Vx, Vy, N: all N bytes are read first, then the sprite is attached at column V[x], row V[y],
then VF gets the collision (R252). -/
def execDrw (x y n : Nibble) (s : State) : Result :=
  match s.readBytes s.base n.toNat with
  | .error c => .next (s.raise c)
  | .ok bytes =>
    let drawn := s.fb.attachSprite bytes (s.regNat x) (s.regNat y)
    (State.setFlag { s with fb := drawn.1 } drawn.2).advance

end Sys2Proof.Machine
end

