-- ==== Sys2Proof/Machine/Index.lean ====
section
/-! DEFINITION. The index register and memory transfers at I (43_index_memory.md). FX33, FX55 and FX65
leave I as it was (R226) and keep the accesses made before a fault (R77). -/

namespace Sys2Proof.Machine

/-- LD I, NNN (R220). -/
def execLdI (nnn : Addr12) (s : State) : Result := State.advance { s with i := addrOperand nnn }

/-- ADD I, Vx: a sum above 16 bits is `ValueOutOfRange`, VF is unchanged (R221, decision D18). -/
def execAddI (x : Nibble) (s : State) : Result :=
  match s.writeI (s.indexSum x) with
  | .error c => .next (s.raise c)
  | .ok t => t.advance

/-- LD F, Vx (R222). -/
def execLdF (x : Nibble) (s : State) : Result :=
  State.advance { s with i := BitVec.ofNat 16 (glyphAddress (glyphDigit (s.reg x))) }

/-- LD B, Vx: three digits at I, I + 1, I + 2 (R223). -/
def execLdB (x : Nibble) (s : State) : Result :=
  concludeLoop State.advance (s.storeBytes s.base (decimalDigits (s.reg x)))

/-- LD [I], Vx: `V[0] .. V[x]` at I upward (R224). -/
def execLdMemVx (x : Nibble) (s : State) : Result :=
  concludeLoop State.advance (s.storeBytes s.base ((regsUpTo x).map s.reg))

/-- LD Vx, [I]: `V[0] .. V[x]` from I upward (R225). -/
def execLdVxMem (x : Nibble) (s : State) : Result :=
  concludeLoop State.advance (s.loadRegs s.base (regsUpTo x))

end Sys2Proof.Machine
end

