-- ==== Sys2Proof/Machine/Keypad.lean ====
section
/-! DEFINITION. The keypad and timer instructions (45_keypad_timers.md). FX0A only enters the wait; the
event that ends it is in Machine/Events.lean (R284, R285). -/

namespace Sys2Proof.Machine

/-- SKP Vx: the key index is not masked (R280, decision D34). -/
def execSkp (x : Nibble) (s : State) : Result :=
  match s.isPressed (s.regNat x) with
  | .error c => .next (s.raise c)
  | .ok down => s.skipIf down

/-- SKNP Vx (R281). -/
def execSknp (x : Nibble) (s : State) : Result :=
  match s.isPressed (s.regNat x) with
  | .error c => .next (s.raise c)
  | .ok down => s.skipIf (!down)

/-- LD Vx, K: `mode <- WAIT_KEY(x)`, PC not written (R284). -/
def execLdVxK (x : Nibble) (s : State) : Result := .next { s with mode := .waitKey x }

/-- LD Vx, DT (R286). -/
def execLdVxDt (x : Nibble) (s : State) : Result := (s.setReg x s.dt).advance

/-- LD DT, Vx (R287). -/
def execLdDtVx (x : Nibble) (s : State) : Result := State.advance { s with dt := s.reg x }

/-- LD ST, Vx (R288). -/
def execLdStVx (x : Nibble) (s : State) : Result := State.advance { s with st := s.reg x }

end Sys2Proof.Machine
end

