-- ==== Sys2Proof/Machine/NoOp.lean ====
section
/-! DEFINITION. The no-op family (40_engine_cycle.md section 4): SYS NNN and the unrecognised words of
groups 8, E and F only advance PC (R141, R142). -/

namespace Sys2Proof.Machine

/-- SYS NNN / NOP of group 0: NNN is ignored (R142). -/
def execSys (s : State) : Result := s.advance

/-- NOP of group 8 (R141). -/
def execNop8 (s : State) : Result := s.advance

/-- NOP of group E (R141). -/
def execNopE (s : State) : Result := s.advance

/-- NOP of group F (R141). -/
def execNopF (s : State) : Result := s.advance

end Sys2Proof.Machine
end

