-- ==== Sys2Proof/Machine/Events.lean ====
section
/-! DEFINITION. The environment's events at a cycle boundary (R19, R135): timer tick (R295), key press
and release (R285, R290), quit (R137), the renderer's read (R268); in HALTED and STOPPED none changes
anything (R138). `State.boundary` takes the events scheduled for one boundary (log entry 1). -/

namespace Sys2Proof.Machine

/-- Events act in modes RUN and WAIT_KEY only (R136, R138). -/
def Mode.live : Mode → Bool
  | .run => true
  | .waitKey _ => true
  | .halted => false
  | .stopped => false

/-- A countdown timer at a tick: one less, and 0 stays 0 (R46, R295). -/
def countDown (b : Byte) : Byte := if b.toNat > 0 then b - 1 else b

/-- The tick in a live mode (R295). -/
def State.tick (s : State) : State := { s with dt := countDown s.dt, st := countDown s.st }

/-- Completion of the key wait by a released-to-pressed transition of key `k` (R285). -/
def State.completeWait (s : State) (x k : Nibble) : State :=
  let t : State := { (s.setKey k true).setReg x (k.setWidth 8) with mode := .run }
  match t.writePc t.nextPc with
  | .ok u => u
  | .error c => t.raise c

/-- `key_press(k)` (R285, R290): in WAIT_KEY a key not yet down completes the wait; a key already down
is no transition (decision D23). -/
def State.keyPress (s : State) (k : Nibble) : State :=
  match s.mode with
  | .run => s.setKey k true
  | .waitKey x => if s.key k then s else s.completeWait x k
  | .halted => s
  | .stopped => s

/-- The effect of one event (R135 to R138). -/
def State.event (s : State) : Event → State
  | .tick => if s.mode.live then s.tick else s
  | .keyPress k => s.keyPress k
  | .keyRelease k => if s.mode.live then s.setKey k false else s
  | .quit => if s.mode.live then { s with mode := .stopped } else s
  | .readFrame => s

/-- Events in the order they arrive (R135). -/
def State.events (s : State) (es : List Event) : State := es.foldl State.event s

/-- Take the events scheduled for this cycle boundary, in order; with none scheduled nothing happens
(R131, R135; log entry 1). -/
def State.boundary (s : State) : State :=
  State.events { s with schedule := s.schedule.tail } (s.schedule.headD [])

end Sys2Proof.Machine
end

