-- ==== Sys2Proof/Machine/Step.lean ====
section
/-! DEFINITION. One step of the machine (R130 to R138): the events of one cycle boundary, then, in mode
RUN, one engine step of fetch, decode and execute (log entry 17). -/

namespace Sys2Proof.Machine

/-- `EngineStep()` (R130): fetch, which may raise `AddressOutOfRange` (R80, R132), decode, execute. -/
def engineStep (s : State) : Host.Outcome State Fault Refusal :=
  match s.fetch with
  | .error c => .next (s.raise c)
  | .ok w => exec (decode w) s

/-- One step: HALTED and STOPPED are final (R138, log entry 3); else the events of this boundary are
taken (R135), and the engine steps if they leave it in mode RUN (R136). In WAIT_KEY no instruction
runs. -/
def step (s : State) : Host.Outcome State Fault Refusal :=
  match s.mode with
  | .halted => .fault .halted
  | .stopped => .fault .stopped
  | .run | .waitKey _ =>
    match s.boundary.mode with
    | .run => engineStep s.boundary
    | .waitKey _ | .halted | .stopped => .next s.boundary

/-- `s` with an instruction word, its bits numbered as spec/opcode_table.json numbers them, stored
big-endian where the next fetch reads it, at PC and PC + 1 (R78, R80), in mode RUN and with no event
at the coming boundary, so that the very next step runs it. It stands for the load of a program from
outside (R352; log entry 11). -/
def State.withFetchWord (s : State) (nbits w : Nat) : State :=
  { (s.storeBytes s.pc.toNat [highByte (tableWord nbits w), lowByte (tableWord nbits w)]).1 with
    mode := .run
    schedule := match s.schedule with
      | [] => []
      | _ :: rest => [] :: rest }

end Sys2Proof.Machine
end

