-- ==== Sys2Proof/Machine/Reset.lean ====
section
/-! DEFINITION. Reset with a ROM and a display mode (70_reset_and_hazards.md, R350 to R355): the only
way to start the core. It discards all state, so it is a function to a state and no part of a step
(log entry 12). -/

namespace Sys2Proof.Machine

/-- The ROM stream as reset finds it (R23, R352). -/
inductive RomStream where
  /-- The stream cannot be opened or read. -/
  | unreadable
  /-- A finite byte image, loaded verbatim. -/
  | image (bytes : List Byte)
  deriving DecidableEq, Repr

/-- Every state element at its reset value, in the given display mode, before the ROM (R55, R350). -/
def State.resetIn (d : DisplayMode) : State := { State.reset with fb := Framebuffer.blank d }

/-- `LoadRom(rom)`: the size check comes before any copy (R352). -/
def State.loadRom (s : State) : RomStream → Except Condition State
  | .unreadable => .error ⟨.romLoadError, 0⟩
  | .image bytes =>
    if bytes.length > Config.maxRom then .error ⟨.romTooLarge, bytes.length⟩
    else .ok { s with mem := s.mem.setAll Config.progBase bytes }

/-- `Reset(rom, DISPLAY_MODE)` (R350): a fault of the load leaves the core HALTED with the fault
record set (R353). -/
def State.powerOn (rom : RomStream) (d : DisplayMode) : State :=
  match (State.resetIn d).loadRom rom with
  | .ok s => s
  | .error c => (State.resetIn d).raise c

end Sys2Proof.Machine
end

