-- ==== Sys2Proof/Machine/Ports.lean ====
section
/-! DEFINITION. The block's outputs (R18): the framebuffer read port (R27, R268), the sound timer (R28),
the run status and the fault record with the spec's numeric codes (R50, R51, R310); the keypad's contract
at its own interface (R291); the interfaces of the register file, the stack and the keypad, where a
failing check is a fault that halts the core (R33, R310, 93_implementation_defined.md U11); and the
host's interactions (R143). No rule of the core reads any of them. -/

namespace Sys2Proof.Machine

/-- The number of a mode (R50). -/
def Mode.code : Mode → Nat
  | .run => 0
  | .waitKey _ => 1
  | .halted => 2
  | .stopped => 3

/-- The code of a fault (R310). -/
def FaultKind.code : FaultKind → Nat
  | .none => 0
  | .addressOutOfRange => 1
  | .registerIndexOutOfRange => 2
  | .keyIndexOutOfRange => 3
  | .valueOutOfRange => 4
  | .stackUnderflow => 5
  | .stackOverflow => 6
  | .romLoadError => 7
  | .romTooLarge => 8

/-- What the framebuffer read port gives (R27). -/
structure FramePort where
  width : Nat
  height : Nat
  pixels : List (List Bool)
  deriving DecidableEq, Repr

/-- The framebuffer read port: all `W x H` pixels, row by row (R27, R268). -/
def State.framePort (s : State) : FramePort where
  width := s.fb.displayMode.width
  height := s.fb.displayMode.height
  pixels := (List.range s.fb.displayMode.height).map fun r =>
    (List.range s.fb.displayMode.width).map fun c => s.fb.pixel r c

/-- `st_out` (R28). -/
def State.stOut (s : State) : Byte := s.st

/-- `sound_on` (R28). -/
def State.soundOn (s : State) : Bool := s.st != 0

/-- What a status read gives: `mode`, `fault_kind`, `fault_info` as numbers (R18, R143). -/
structure StatusPort where
  mode : Nat
  faultKind : Nat
  faultInfo : Nat
  deriving DecidableEq, Repr

/-- The status read (R18, R143). -/
def State.statusPort (s : State) : StatusPort := ⟨s.mode.code, s.faultKind.code, s.faultInfo⟩

/-- The keypad's own `press` (true) and `release` (false) by a natural index, validated (R291). The
ports carry 4 bits, so no event reaches the failing case (R25); log entry 16. This is the
check alone: `State.keypadWrite` takes its fault. -/
def State.writeKeyAt (s : State) (k : Nat) (down : Bool) : Except Condition State :=
  if k < Config.numKeys then .ok (s.setKey (BitVec.ofNat 4 k) down)
  else .error ⟨.keyIndexOutOfRange, k⟩

/-! ### The components' own interfaces (log entry 16)

These are the interfaces of the register file, the stack and the keypad themselves, not ports of the
block: through the ports no host writes a register or the stack of a running core (R143). -/

/-- The state `t` in modes RUN and WAIT_KEY, `s` itself in HALTED and STOPPED, where nothing changes any
more (R136, R138). -/
def State.whileLive (s t : State) : State := if s.mode.live then t else s

/-- An access whose check answers `r`: the state it gives, or the fault taken, which writes the fault
record and halts (R310, R320). -/
def State.ifaceTake (s : State) : Except Condition State → State
  | .ok t => s.whileLive t
  | .error c => s.whileLive (s.raise c)

/-- The same for an access that only reads: the value where there is one, and the state. -/
def State.ifaceLook {α : Type} (s : State) : Except Condition α → Option α × State
  | .ok a => (some a, s)
  | .error c => (none, s.ifaceTake (.error c))

/-- A read at the register file's interface. An index above 15 is the fault `RegisterIndexOutOfRange`,
code 2 (R33, R310; 93_implementation_defined.md U11). -/
def State.regFileRead (s : State) (n : Nat) : Option Byte × State := s.ifaceLook (s.readRegAt n)

/-- A write at the register file's interface, modulo 256 (R32), with the same fault (R33, R310, U11). The
write up to 15 is the register file's, and none that a host makes on a running core (R143). -/
def State.regFileWrite (s : State) (n value : Nat) : State := s.ifaceTake (s.writeRegAt n value)

/-- A peek at the stack's interface. On an empty stack it is the fault `StackUnderflow` (R43, R320;
DEDUCED, log entry 19). -/
def State.stackPeek (s : State) : Option Word × State := s.ifaceLook s.peek

/-- `key_press(k)` (true) or `key_release(k)`. -/
def keyEvent (k : Nibble) (down : Bool) : Event := if down then .keyPress k else .keyRelease k

/-- `press(key)` (true) or `release(key)` at the keypad's interface. The call of the input source (R22) IS
the event key_press or key_release, in WAIT_KEY too, where it completes the wait as R285 says (DEDUCED,
log entry 19). An index above 15 is the fault `KeyIndexOutOfRange` (R291, R320; DEDUCED, log entry 19). -/
def State.keypadWrite (s : State) (k : Nat) (down : Bool) : State :=
  s.ifaceTake ((s.writeKeyAt k down).map fun _ => s.event (keyEvent (BitVec.ofNat 4 k) down))

/-! ### The host's interactions (R143) -/

/-- What the host does to the core, the rows of R143's table. `rand`, which the host supplies when CXNN
executes, is `Config.rand` (log entry 2). -/
inductive HostAction where
  /-- Reset, at any time, discarding all state (R350). -/
  | reset (rom : RomStream) (d : DisplayMode)
  /-- A tick, a key event, quit or a framebuffer read (R135); what the read gives is
  `State.framePort`. -/
  | event (e : Event)
  /-- A status read; what it gives is `State.statusPort`, `State.stOut`, `State.soundOn`. -/
  | readStatus
  deriving DecidableEq, Repr

/-- What the core does at a boundary for each of the host's interactions (R143). There is no other:
none writes memory, a register, the stack or the framebuffer of a running core, and none but reset
resumes a halted or stopped one. -/
def State.hostAct (s : State) : HostAction → State
  | .reset rom d => State.powerOn rom d
  | .event e => s.event e
  | .readStatus => s

end Sys2Proof.Machine
end

