-- ==== Sys2Proof/Safety.lean ====
section
/-! DEFINITION. The terms claims are stated in: where an instruction can stand, what a run keeps (the
canonical form of memory, the bounds of R38, a consistent fault record), what an instruction leaves
unchanged, and the instructions that end in the default advance. -/

namespace Sys2Proof.Machine

/-! ### Where an instruction can stand -/

/-- A fetch from PC succeeds (R80): where PC stands when an instruction executes. -/
abbrev State.fetchable (s : State) : Prop := s.pc.toNat ≤ 0x0FFE

/-- The instruction at PC: what the word a fetch reads there decodes to (R78, R80, R133). -/
abbrev State.instrAtPc (s : State) : Instr :=
  decode (bigEndian (s.mem.get s.pc.toNat) (s.mem.get (s.pc.toNat + 1)))

/-- No event is scheduled for the coming cycle boundary. -/
abbrev State.quiet (s : State) : Prop := s.schedule.headD [] = []

/-- The state after a boundary at which nothing happens. -/
def State.pass (s : State) : State := { s with schedule := s.schedule.tail }

/-! ### What a run keeps -/

/-- Memory is in its canonical form. -/
abbrev State.memOk (s : State) : Prop := s.mem.wf = true

/-- The bounds of R38 on PC and every stack entry; and while a key wait lasts, PC stands at its FX0A, the
instruction that names the wait's own destination register (R50, R284). -/
structure State.PcOk (s : State) : Prop where
  pc : s.pc.toNat ≤ 0x10FE
  stack : ∀ n, n < 16 → (s.stackEntry n).toNat ≤ 0x1000
  wait : ∀ x, s.mode = .waitKey x → s.fetchable ∧ s.instrAtPc = .ldVxK x

/-- The fault record names a fault exactly in mode HALTED, and its info is 0 without one (R51, R55). -/
structure State.RecordOk (s : State) : Prop where
  halted : s.mode = .halted ↔ s.faultKind ≠ .none
  info : s.faultKind = .none → s.faultInfo = 0

/-! ### What an instruction leaves unchanged -/

/-- Every general register but the listed ones. -/
def SameRegsBut (dst : List Nibble) (s t : State) : Prop := ∀ r, r ∉ dst → t.reg r = s.reg r

/-- The stack: its depth and every entry. -/
def SameStack (s t : State) : Prop := t.sp = s.sp ∧ ∀ n, t.stackEntry n = s.stackEntry n

/-- Both timers. -/
def SameTimers (s t : State) : Prop := t.dt = s.dt ∧ t.st = s.st

/-- The display mode and every pixel. -/
def SameDisplay (s t : State) : Prop :=
  t.fb.displayMode = s.fb.displayMode ∧ ∀ r c, t.fb.pixel r c = s.fb.pixel r c

/-- Every key flag. -/
def SameKeys (s t : State) : Prop := ∀ k, t.key k = s.key k

/-- The engine mode and the fault record. -/
def SameStatus (s t : State) : Prop :=
  t.mode = s.mode ∧ t.faultKind = s.faultKind ∧ t.faultInfo = s.faultInfo

/-- Every byte of memory. -/
def SameMem (s t : State) : Prop := ∀ a, t.mem.get a = s.mem.get a

/-- Every byte of memory but the `n` from address `lo` upward. -/
def SameMemOutside (lo n : Nat) (s t : State) : Prop :=
  ∀ a, a < lo ∨ lo + n ≤ a → t.mem.get a = s.mem.get a

/-- What address `a` holds once the bytes `bs` are stored from I upward. -/
def State.byteAfterStore (s : State) (bs : List Byte) (a : Nat) : Byte :=
  if s.i.toNat ≤ a ∧ a < s.i.toNat + bs.length then bs.getD (a - s.i.toNat) 0 else s.mem.get a

end Sys2Proof.Machine

namespace Sys2Proof

/-! ### Encodings -/

/-- A row of the opcode map (R106): every word whose bits under `mask` are `pattern` decodes to
`form` of that word. -/
def Encodes (mask pattern : Word) (form : Word → Instr) : Prop :=
  ∀ w : Word, w &&& mask = pattern → decode w = form w

/-! ### Families of instructions -/

/-- The instructions with the default advance: all but the transfers and skips of
41_control_flow.md, SKP, SKNP and FX0A (R36, R37, R134). -/
def Instr.advances : Instr → Bool
  | .ret _ | .jp _ | .call _ | .seImm _ _ | .sneImm _ _ | .seReg _ _ _ | .sneReg _ _ _ | .jpV0 _
  | .skp _ | .sknp _ | .ldVxK _ => false
  | .cls _ | .ldImm _ _ | .addImm _ _ | .ldReg _ _ | .orReg _ _ | .andReg _ _ | .xorReg _ _
  | .addReg _ _ | .subReg _ _ | .shr _ _ | .subnReg _ _ | .shl _ _ | .ldI _ | .rnd _ _
  | .drw _ _ _ | .ldVxDt _ | .ldDtVx _ | .ldStVx _ | .addI _ | .ldF _ | .ldB _ | .ldMemVx _
  | .ldVxMem _ | .sys _ | .nop8 _ _ _ | .nopE _ _ | .nopF _ _ => true

/-- The three instructions whose accesses before a fault stay (R321). -/
def Instr.transfers : Instr → Bool
  | .ldB _ | .ldMemVx _ | .ldVxMem _ => true
  | .cls _ | .ret _ | .jp _ | .call _ | .seImm _ _ | .sneImm _ _ | .seReg _ _ _ | .sneReg _ _ _
  | .ldImm _ _ | .addImm _ _ | .ldReg _ _ | .orReg _ _ | .andReg _ _ | .xorReg _ _
  | .addReg _ _ | .subReg _ _ | .shr _ _ | .subnReg _ _ | .shl _ _ | .ldI _ | .jpV0 _ | .rnd _ _
  | .drw _ _ _ | .skp _ | .sknp _ | .ldVxDt _ | .ldVxK _ | .ldDtVx _ | .ldStVx _ | .addI _
  | .ldF _ | .sys _ | .nop8 _ _ _ | .nopE _ _ | .nopF _ _ => false

/-- The word executes as a no-op: an unrecognised word of groups 0, 8, E, F (R107, R141, R142). -/
def Instr.isNoOp : Instr → Bool
  | .sys _ | .nop8 _ _ _ | .nopE _ _ | .nopF _ _ => true
  | .cls _ | .ret _ | .jp _ | .call _ | .seImm _ _ | .sneImm _ _ | .seReg _ _ _ | .sneReg _ _ _
  | .ldImm _ _ | .addImm _ _ | .ldReg _ _ | .orReg _ _ | .andReg _ _ | .xorReg _ _
  | .addReg _ _ | .subReg _ _ | .shr _ _ | .subnReg _ _ | .shl _ _ | .ldI _ | .jpV0 _ | .rnd _ _
  | .drw _ _ _ | .skp _ | .sknp _ | .ldVxDt _ | .ldVxK _ | .ldDtVx _ | .ldStVx _ | .addI _
  | .ldF _ | .ldB _ | .ldMemVx _ | .ldVxMem _ => false

end Sys2Proof
end

