-- ==== Sys2Proof/Certificates/Slice0/Obligations.lean ====
section
/-! DEFINITION. The statements for the provers, from the spec's numbered rules. A result is stated as
the next state `exec` answers, as a whole: `t = { s with ... }` names every field that may differ, so
it states the frame too. A statement that formalises an instruction's rule begins with the rule's
encoding: `Encodes mask match form` says that every word with those bits decodes to that form, its
operands the word's fields. `s.fetchable` (PC at most 0x0FFE, R80) is where an instruction can stand. -/

open Sys2Proof Sys2Proof.Machine

/-! ### Encoding -/

/-- R106, R107, R110: decoding the word, and the two bytes, of a well-formed instruction gives it
back, whatever bytes follow. -/
def Obligations.DecodeInvertsEncode : Prop :=
  ∀ i : Instr, i.wellFormed = true →
    decode (encode i) = i ∧ ∀ rest, decodeBytes (encodeBytes i ++ rest) = .ok (i, rest)

/-- R108: every word decodes, to a well-formed instruction. That it stands for exactly that word, no
bit dropped, is the model's choice, since its terms carry the bits their row does not examine (log
entry 10). -/
def Obligations.EveryWordDecodes : Prop :=
  ∀ w : Word, (decode w).wellFormed = true ∧ encode (decode w) = w

/-- R101: the fields are the bits of the word the table names. -/
def Obligations.FieldsAreBitsOfWord : Prop :=
  ∀ w : Word,
    (fieldOp w).toNat = w.toNat / 4096 ∧ (fieldX w).toNat = w.toNat / 256 % 16 ∧
    (fieldY w).toNat = w.toNat / 16 % 16 ∧ (fieldN w).toNat = w.toNat % 16 ∧
    (fieldNN w).toNat = w.toNat % 256 ∧ (fieldNNN w).toNat = w.toNat % 4096

/-- R107, R108: a word is a no-op exactly if it lies in group 0, 8, E or F and its second key is none
of the group's keys. -/
def Obligations.NoOpWordsOfGroups : Prop :=
  ∀ w : Word, (decode w).isNoOp = true ↔
    (w.toNat / 4096 = 0x0 ∧ w.toNat % 256 ∉ [0xE0, 0xEE]) ∨
    (w.toNat / 4096 = 0x8 ∧ w.toNat % 16 ∈ [0x8, 0x9, 0xA, 0xB, 0xC, 0xD, 0xF]) ∨
    (w.toNat / 4096 = 0xE ∧ w.toNat % 256 ∉ [0x9E, 0xA1]) ∨
    (w.toNat / 4096 = 0xF ∧
      w.toNat % 256 ∉ [0x07, 0x0A, 0x15, 0x18, 0x1E, 0x29, 0x33, 0x55, 0x65])

/-- The words of 95_test_vectors.md section 2.1 and of the source's example W7 decode as given there. -/
def Obligations.SpecWordsDecode : Prop :=
  decode 0x00E0 = .cls 0x0 ∧ decode 0x01E0 = .cls 0x1 ∧ decode 0x0FEE = .ret 0xF ∧
  decode 0x0123 = .sys 0x123 ∧ decode 0x5121 = .seReg 0x1 0x2 0x1 ∧
  decode 0x9AB7 = .sneReg 0xA 0xB 0x7 ∧ decode 0x8008 = .nop8 0x0 0x0 0x8 ∧
  decode 0x8AB7 = .subnReg 0xA 0xB ∧ decode 0xE0A0 = .nopE 0x0 0xA0 ∧
  decode 0xF030 = .nopF 0x0 0x30 ∧ decode 0xFF65 = .ldVxMem 0xF ∧
  decode 0x6005 = .ldImm 0x0 0x05 ∧ decode 0x8014 = .addReg 0x0 0x1 ∧ decode 0xA200 = .ldI 0x200

/-! ### The step -/

/-- R130, R136: in mode RUN, with no event at the boundary and a fetch that succeeds, a step is `exec`
of the decoded instruction, in the state past that boundary. -/
def Obligations.StepRunsDecodedInstruction : Prop :=
  ∀ (s : State) (i : Instr), s.mode = .run → s.quiet → s.fetchable →
    decode (bigEndian (s.mem.get s.pc.toNat) (s.mem.get (s.pc.toNat + 1))) = i →
    i.wellFormed = true ∧ step s = exec i s.pass

/-- R131, R135, R136: in RUN and WAIT_KEY a step takes the events of the coming boundary in order (none
where the schedule is empty), then runs one engine step if they leave mode RUN, and nothing more if they
do not. The schedule and the cut into steps are the model's choice (log entries 1 and 17). -/
def Obligations.StepTakesEventsFirst : Prop :=
  ∀ (s : State) (es : List Event) (rest : List (List Event)),
    (s.mode = .run ∨ ∃ x, s.mode = .waitKey x) →
    es = s.schedule.headD [] → rest = s.schedule.tail →
    ((State.events { s with schedule := rest } es).mode = .run →
      step s = engineStep (State.events { s with schedule := rest } es)) ∧
    ((State.events { s with schedule := rest } es).mode ≠ .run →
      step s = .next (State.events { s with schedule := rest } es))

/-- R80: a fetch succeeds exactly when PC is at most 0x0FFE, reading two bytes big-endian, and the
engine step executes what they decode to; else it raises `AddressOutOfRange` at PC, or at 0x1000 when PC is 0x0FFF, and the engine step executes
nothing: it only takes the fault, PC staying at the fetch address. -/
def Obligations.FetchReadsTwoBytesOrFaults : Prop :=
  ∀ s : State,
    (s.pc.toNat ≤ 0x0FFE →
      s.fetch = .ok (bigEndian (s.mem.get s.pc.toNat) (s.mem.get (s.pc.toNat + 1))) ∧
      engineStep s = exec s.instrAtPc s) ∧
    (s.pc.toNat = 0x0FFF → s.fetch = .error ⟨.addressOutOfRange, 0x1000⟩ ∧
      engineStep s = .next (s.raise ⟨.addressOutOfRange, 0x1000⟩)) ∧
    (4096 ≤ s.pc.toNat → s.fetch = .error ⟨.addressOutOfRange, s.pc.toNat⟩ ∧
      engineStep s = .next (s.raise ⟨.addressOutOfRange, s.pc.toNat⟩)) ∧
    (∀ c, (s.raise c).pc = s.pc)

/-- R320: taking a fault writes the fault record and mode HALTED, and nothing else. -/
def Obligations.FaultHaltsWithRecord : Prop :=
  ∀ (s : State) (c : Condition),
    s.raise c = { s with faultKind := c.kind, faultInfo := c.info, mode := .halted }

/-- R138: in HALTED and STOPPED no engine step is enabled and no event changes any state. How a step
answers there (the model's own fault, log entry 3) is the model's choice. -/
def Obligations.EndedRunIsFinal : Prop :=
  ∀ s : State,
    (s.mode = .halted → step s = .fault .halted ∧ ∀ e, s.event e = s) ∧
    (s.mode = .stopped → step s = .fault .stopped ∧ ∀ e, s.event e = s)

/-- R136, R284: in WAIT_KEY with no event at the boundary no instruction runs and nothing changes. That
`step` answers a next state there, one boundary further in the schedule, is the model's choice (log
entries 1 and 17); the spec's engine makes no step. -/
def Obligations.KeyWaitRunsNoInstruction : Prop :=
  ∀ (s : State) (x : Nibble), s.mode = .waitKey x → s.quiet → step s = .next s.pass

/-! ### Control transfer -/

/-- R150: RET with an entry in use goes to the top entry and has one entry fewer; on an empty stack
it raises `StackUnderflow(PC)`, everything else unchanged. -/
def Obligations.ReturnPopsOrUnderflows : Prop :=
  Encodes 0xF0FF 0x00EE (fun w => .ret (fieldX w)) ∧
  ∀ (s : State) (u : Nibble),
    (0 < s.sp.val → ∃ t, exec (.ret u) s = .next t ∧ t = { s with pc := t.pc, sp := t.sp } ∧
      t.pc = s.stackEntry (s.sp.val - 1) ∧ t.sp.val = s.sp.val - 1) ∧
    (s.sp.val = 0 → exec (.ret u) s = .next (s.raise ⟨.stackUnderflow, s.pc.toNat⟩))

/-- R151: JP NNN writes PC with the zero-extended target and nothing else. -/
def Obligations.JumpWritesTarget : Prop :=
  Encodes 0xF000 0x1000 (fun w => .jp (fieldNNN w)) ∧
  ∀ (s : State) (nnn : Addr12), exec (.jp nnn) s = .next { s with pc := nnn.setWidth 16 }

/-- R152: CALL pushes the address of the instruction after it and jumps; with 16 entries in use it
raises `StackOverflow(PC)`, everything else unchanged. -/
def Obligations.CallPushesOrOverflows : Prop :=
  Encodes 0xF000 0x2000 (fun w => .call (fieldNNN w)) ∧
  ∀ (s : State) (nnn : Addr12), s.fetchable →
    (s.sp.val < 16 → ∃ t, exec (.call nnn) s = .next t ∧
      t = { s with stack := t.stack, sp := t.sp, pc := nnn.setWidth 16 } ∧
      t.sp.val = s.sp.val + 1 ∧
      ∀ n, t.stackEntry n = if n = s.sp.val then s.pc + 2 else s.stackEntry n) ∧
    (s.sp.val = 16 → exec (.call nnn) s = .next (s.raise ⟨.stackOverflow, s.pc.toNat⟩))

/-- R42, R152, R159: a RET right after a CALL goes to the instruction after the CALL, with the stack's
depth and every entry in use as they were, and nothing else changed. -/
def Obligations.ReturnUndoesCall : Prop :=
  ∀ (s : State) (nnn : Addr12) (u : Nibble), s.fetchable → s.sp.val < 16 →
    ∃ t t', exec (.call nnn) s = .next t ∧ exec (.ret u) t = .next t' ∧
      t' = { s with pc := s.pc + 2, stack := t'.stack } ∧
      ∀ n, n < s.sp.val → t'.stackEntry n = s.stackEntry n

/-- R154 to R157: the four register skips go to PC + 4 when their comparison holds and to PC + 2 when
it does not, and change nothing else; the low nibble of 5XYn and 9XYn plays no part. -/
def Obligations.SkipsCompareRegisters : Prop :=
  Encodes 0xF000 0x3000 (fun w => .seImm (fieldX w) (fieldNN w)) ∧
  Encodes 0xF000 0x4000 (fun w => .sneImm (fieldX w) (fieldNN w)) ∧
  Encodes 0xF000 0x5000 (fun w => .seReg (fieldX w) (fieldY w) (fieldN w)) ∧
  Encodes 0xF000 0x9000 (fun w => .sneReg (fieldX w) (fieldY w) (fieldN w)) ∧
  ∀ (s : State) (x y u : Nibble) (nn : Byte), s.fetchable →
    exec (.seImm x nn) s = .next { s with pc := if s.reg x = nn then s.pc + 4 else s.pc + 2 } ∧
    exec (.sneImm x nn) s = .next { s with pc := if s.reg x ≠ nn then s.pc + 4 else s.pc + 2 } ∧
    exec (.seReg x y u) s =
      .next { s with pc := if s.reg x = s.reg y then s.pc + 4 else s.pc + 2 } ∧
    exec (.sneReg x y u) s =
      .next { s with pc := if s.reg x ≠ s.reg y then s.pc + 4 else s.pc + 2 }

/-- R158: JP V0, NNN goes to the natural sum NNN + V[0], which does not wrap, and changes nothing
else. -/
def Obligations.JumpWithOffsetAddsV0 : Prop :=
  Encodes 0xF000 0xB000 (fun w => .jpV0 (fieldNNN w)) ∧
  ∀ (s : State) (nnn : Addr12), ∃ t, exec (.jpV0 nnn) s = .next t ∧ t = { s with pc := t.pc } ∧
    t.pc.toNat = nnn.toNat + (s.reg 0x0).toNat ∧ t.pc.toNat ≤ 0x10FE

/-- R141, R142: SYS NNN (a group-0 word with a low byte other than E0 and EE) and every no-op only
advance PC by 2; NNN and the other bits of the word play no part. -/
def Obligations.NoOpsOnlyAdvance : Prop :=
  (∀ w : Word, fieldOp w = 0x0 → fieldNN w ≠ 0xE0 → fieldNN w ≠ 0xEE →
    decode w = .sys (fieldNNN w)) ∧
  ∀ (s : State) (i : Instr), s.fetchable → i.isNoOp = true →
    exec i s = .next { s with pc := s.pc + 2 }

/-! ### Loads, arithmetic and logic -/

/-- R180, R182: the loads write V[X] and advance PC; no other register changes, VF included. -/
def Obligations.LoadsWriteRegister : Prop :=
  Encodes 0xF000 0x6000 (fun w => .ldImm (fieldX w) (fieldNN w)) ∧
  Encodes 0xF00F 0x8000 (fun w => .ldReg (fieldX w) (fieldY w)) ∧
  ∀ (s : State) (x y : Nibble) (nn : Byte), s.fetchable →
    (∃ t, exec (.ldImm x nn) s = .next t ∧ t = { s with v := t.v, pc := s.pc + 2 } ∧
      t.reg x = nn ∧ SameRegsBut [x] s t) ∧
    (∃ t, exec (.ldReg x y) s = .next t ∧ t = { s with v := t.v, pc := s.pc + 2 } ∧
      t.reg x = s.reg y ∧ SameRegsBut [x] s t)

/-- R181: ADD Vx, NN adds modulo 256 and discards the carry: VF is unchanged unless it is X. -/
def Obligations.AddImmediateWraps : Prop :=
  Encodes 0xF000 0x7000 (fun w => .addImm (fieldX w) (fieldNN w)) ∧
  ∀ (s : State) (x : Nibble) (nn : Byte), s.fetchable →
    ∃ t, exec (.addImm x nn) s = .next t ∧ t = { s with v := t.v, pc := s.pc + 2 } ∧
      (t.reg x).toNat = ((s.reg x).toNat + nn.toNat) % 256 ∧ SameRegsBut [x] s t

/-- R183 to R185: OR, AND and XOR, bit by bit; VF is not reset. -/
def Obligations.LogicLeavesFlag : Prop :=
  Encodes 0xF00F 0x8001 (fun w => .orReg (fieldX w) (fieldY w)) ∧
  Encodes 0xF00F 0x8002 (fun w => .andReg (fieldX w) (fieldY w)) ∧
  Encodes 0xF00F 0x8003 (fun w => .xorReg (fieldX w) (fieldY w)) ∧
  ∀ (s : State) (x y : Nibble), s.fetchable →
    (∃ t, exec (.orReg x y) s = .next t ∧ t = { s with v := t.v, pc := s.pc + 2 } ∧
      SameRegsBut [x] s t ∧
      ∀ j, (t.reg x).getLsbD j = ((s.reg x).getLsbD j || (s.reg y).getLsbD j)) ∧
    (∃ t, exec (.andReg x y) s = .next t ∧ t = { s with v := t.v, pc := s.pc + 2 } ∧
      SameRegsBut [x] s t ∧
      ∀ j, (t.reg x).getLsbD j = ((s.reg x).getLsbD j && (s.reg y).getLsbD j)) ∧
    (∃ t, exec (.xorReg x y) s = .next t ∧ t = { s with v := t.v, pc := s.pc + 2 } ∧
      SameRegsBut [x] s t ∧
      ∀ j, (t.reg x).getLsbD j = ((s.reg x).getLsbD j ^^ (s.reg y).getLsbD j))

/-- R186: ADD Vx, Vy writes the sum modulo 256, then VF with the carry: VF ends as the flag also when
X is F, and the operands are those before any write. -/
def Obligations.AddSetsCarry : Prop :=
  Encodes 0xF00F 0x8004 (fun w => .addReg (fieldX w) (fieldY w)) ∧
  ∀ (s : State) (x y : Nibble), s.fetchable →
    ∃ t, exec (.addReg x y) s = .next t ∧ t = { s with v := t.v, pc := s.pc + 2 } ∧
      SameRegsBut [x, 0xF] s t ∧
      (x ≠ 0xF → (t.reg x).toNat = ((s.reg x).toNat + (s.reg y).toNat) % 256) ∧
      t.reg 0xF = if (s.reg x).toNat + (s.reg y).toNat > 255 then 1 else 0

/-- R187, R189: SUB and SUBN write the difference modulo 256, then VF: 1 when no borrow occurs. -/
def Obligations.SubtractSetsNoBorrow : Prop :=
  Encodes 0xF00F 0x8005 (fun w => .subReg (fieldX w) (fieldY w)) ∧
  Encodes 0xF00F 0x8007 (fun w => .subnReg (fieldX w) (fieldY w)) ∧
  ∀ (s : State) (x y : Nibble), s.fetchable →
    (∃ t, exec (.subReg x y) s = .next t ∧ t = { s with v := t.v, pc := s.pc + 2 } ∧
      SameRegsBut [x, 0xF] s t ∧
      (x ≠ 0xF → (t.reg x).toNat = ((s.reg x).toNat + 256 - (s.reg y).toNat) % 256) ∧
      t.reg 0xF = if (s.reg x).toNat ≥ (s.reg y).toNat then 1 else 0) ∧
    (∃ t, exec (.subnReg x y) s = .next t ∧ t = { s with v := t.v, pc := s.pc + 2 } ∧
      SameRegsBut [x, 0xF] s t ∧
      (x ≠ 0xF → (t.reg x).toNat = ((s.reg y).toNat + 256 - (s.reg x).toNat) % 256) ∧
      t.reg 0xF = if (s.reg y).toNat ≥ (s.reg x).toNat then 1 else 0)

/-- R188, R190: the shifts work in place on V[X], ignore Y, and write the bit shifted out to VF after
the result. -/
def Obligations.ShiftsWorkInPlace : Prop :=
  Encodes 0xF00F 0x8006 (fun w => .shr (fieldX w) (fieldY w)) ∧
  Encodes 0xF00F 0x800E (fun w => .shl (fieldX w) (fieldY w)) ∧
  ∀ (s : State) (x y : Nibble), s.fetchable →
    (∃ t, exec (.shr x y) s = .next t ∧ t = { s with v := t.v, pc := s.pc + 2 } ∧
      SameRegsBut [x, 0xF] s t ∧
      (x ≠ 0xF → (t.reg x).toNat = (s.reg x).toNat / 2) ∧
      (t.reg 0xF).toNat = (s.reg x).toNat % 2) ∧
    (∃ t, exec (.shl x y) s = .next t ∧ t = { s with v := t.v, pc := s.pc + 2 } ∧
      SameRegsBut [x, 0xF] s t ∧
      (x ≠ 0xF → (t.reg x).toNat = (s.reg x).toNat * 2 % 256) ∧
      (t.reg 0xF).toNat = (s.reg x).toNat / 128)

/-- R205: RND writes a free byte masked by NN: whatever the draw, no bit outside NN is set; VF is
unchanged unless it is X. The draw is the model's free value (log entry 2). -/
def Obligations.RandomIsMasked : Prop :=
  Encodes 0xF000 0xC000 (fun w => .rnd (fieldX w) (fieldNN w)) ∧
  ∀ (s : State) (x : Nibble) (nn : Byte), s.fetchable →
    ∃ (t : State) (r : Byte), exec (.rnd x nn) s = .next t ∧
      t = { s with v := t.v, draws := s.draws + 1, pc := s.pc + 2 } ∧
      t.reg x = r &&& nn ∧ r = Config.rand s.draws ∧ SameRegsBut [x] s t ∧
      ∀ j, nn.getLsbD j = false → (t.reg x).getLsbD j = false

/-! ### Index register and memory -/

/-- R220, R222: LD I, NNN writes the zero-extended address; LD F, Vx the address of the glyph of
V[X]'s low nibble; nothing else changes but PC. -/
def Obligations.IndexLoads : Prop :=
  Encodes 0xF000 0xA000 (fun w => .ldI (fieldNNN w)) ∧
  Encodes 0xF0FF 0xF029 (fun w => .ldF (fieldX w)) ∧
  ∀ (s : State) (nnn : Addr12) (x : Nibble), s.fetchable →
    exec (.ldI nnn) s = .next { s with i := nnn.setWidth 16, pc := s.pc + 2 } ∧
    ∃ t, exec (.ldF x) s = .next t ∧ t = { s with i := t.i, pc := s.pc + 2 } ∧
      t.i.toNat = fontBase + 5 * ((s.reg x).toNat % 16)

/-- R221: ADD I, Vx writes the natural sum where it fits 16 bits, VF unchanged; where it does not, it
raises `ValueOutOfRange` of the sum, I and PC unchanged. -/
def Obligations.AddIndexOrValueFault : Prop :=
  Encodes 0xF0FF 0xF01E (fun w => .addI (fieldX w)) ∧
  ∀ (s : State) (x : Nibble), s.fetchable →
    (s.i.toNat + (s.reg x).toNat ≤ 0xFFFF → ∃ t, exec (.addI x) s = .next t ∧
      t = { s with i := t.i, pc := s.pc + 2 } ∧ t.i.toNat = s.i.toNat + (s.reg x).toNat) ∧
    (0xFFFF < s.i.toNat + (s.reg x).toNat →
      exec (.addI x) s = .next (s.raise ⟨.valueOutOfRange, s.i.toNat + (s.reg x).toNat⟩))

/-- R83, R84: at reset the five bytes at `FONT_BASE + 5 d` are the glyph of digit `d`. -/
def Obligations.FontGlyphsAtReset : Prop :=
  (List.range 16).map (fun d => (List.range 5).map fun k =>
    (State.reset.mem.get (fontBase + 5 * d + k)).toNat) =
  [[0xF0, 0x90, 0x90, 0x90, 0xF0], [0x20, 0x60, 0x20, 0x20, 0x70], [0xF0, 0x10, 0xF0, 0x80, 0xF0],
   [0xF0, 0x10, 0xF0, 0x10, 0xF0], [0x90, 0x90, 0xF0, 0x10, 0x10], [0xF0, 0x80, 0xF0, 0x10, 0xF0],
   [0xF0, 0x80, 0xF0, 0x90, 0xF0], [0xF0, 0x10, 0x20, 0x40, 0x40], [0xF0, 0x90, 0xF0, 0x90, 0xF0],
   [0xF0, 0x90, 0xF0, 0x10, 0xF0], [0xF0, 0x90, 0xF0, 0x90, 0x90], [0xE0, 0x90, 0xE0, 0x90, 0xE0],
   [0xF0, 0x80, 0x80, 0x80, 0xF0], [0xE0, 0x90, 0x90, 0x90, 0xE0], [0xF0, 0x80, 0xF0, 0x80, 0xF0],
   [0xF0, 0x80, 0xF0, 0x80, 0x80]]

/-- R223: LD B, Vx writes hundreds, tens and ones at I, I + 1, I + 2 and no other byte, I, VF and every
register unchanged; at the first address at or above 4096 it faults, the digits before it written,
PC unchanged. -/
def Obligations.BcdStoresDigits : Prop :=
  Encodes 0xF0FF 0xF033 (fun w => .ldB (fieldX w)) ∧
  ∀ (s : State) (x : Nibble), s.memOk → s.fetchable →
    (s.i.toNat + 2 < 4096 → ∃ t, exec (.ldB x) s = .next t ∧
      t = { s with mem := t.mem, pc := s.pc + 2 } ∧
      (t.mem.get s.i.toNat).toNat = (s.reg x).toNat / 100 ∧
      (t.mem.get (s.i.toNat + 1)).toNat = (s.reg x).toNat / 10 % 10 ∧
      (t.mem.get (s.i.toNat + 2)).toNat = (s.reg x).toNat % 10 ∧
      SameMemOutside s.i.toNat 3 s t) ∧
    (4096 ≤ s.i.toNat + 2 → ∃ t, exec (.ldB x) s = .next t ∧
      t = State.raise { s with mem := t.mem } ⟨.addressOutOfRange, max s.i.toNat 4096⟩ ∧
      (s.i.toNat < 4096 → (t.mem.get s.i.toNat).toNat = (s.reg x).toNat / 100) ∧
      (s.i.toNat + 1 < 4096 →
        (t.mem.get (s.i.toNat + 1)).toNat = (s.reg x).toNat / 10 % 10) ∧
      SameMemOutside s.i.toNat (4096 - s.i.toNat) s t)

/-- R224: LD [I], Vx writes V[0] to V[X] at I upward and no other byte, I and every register
unchanged; at the first address at or above 4096 it faults, the bytes before it written, PC
unchanged. -/
def Obligations.DumpStoresRegisters : Prop :=
  Encodes 0xF0FF 0xF055 (fun w => .ldMemVx (fieldX w)) ∧
  ∀ (s : State) (x : Nibble), s.memOk → s.fetchable →
    (s.i.toNat + x.toNat < 4096 → ∃ t, exec (.ldMemVx x) s = .next t ∧
      t = { s with mem := t.mem, pc := s.pc + 2 } ∧
      (∀ k : Nibble, k.toNat ≤ x.toNat → t.mem.get (s.i.toNat + k.toNat) = s.reg k) ∧
      SameMemOutside s.i.toNat (x.toNat + 1) s t) ∧
    (4096 ≤ s.i.toNat + x.toNat → ∃ t, exec (.ldMemVx x) s = .next t ∧
      t = State.raise { s with mem := t.mem } ⟨.addressOutOfRange, max s.i.toNat 4096⟩ ∧
      (∀ k : Nibble, k.toNat ≤ x.toNat → s.i.toNat + k.toNat < 4096 →
        t.mem.get (s.i.toNat + k.toNat) = s.reg k) ∧
      SameMemOutside s.i.toNat (4096 - s.i.toNat) s t)

/-- R225: LD Vx, [I] loads V[0] to V[X] from I upward, I, memory and every other register unchanged;
at the first address at or above 4096 it faults, the registers before it loaded, PC unchanged. -/
def Obligations.LoadFillsRegisters : Prop :=
  Encodes 0xF0FF 0xF065 (fun w => .ldVxMem (fieldX w)) ∧
  ∀ (s : State) (x : Nibble), s.fetchable →
    (s.i.toNat + x.toNat < 4096 → ∃ t, exec (.ldVxMem x) s = .next t ∧
      t = { s with v := t.v, pc := s.pc + 2 } ∧
      ∀ k : Nibble, t.reg k =
        if k.toNat ≤ x.toNat then s.mem.get (s.i.toNat + k.toNat) else s.reg k) ∧
    (4096 ≤ s.i.toNat + x.toNat → ∃ t, exec (.ldVxMem x) s = .next t ∧
      t = State.raise { s with v := t.v } ⟨.addressOutOfRange, max s.i.toNat 4096⟩ ∧
      ∀ k : Nibble, t.reg k =
        if k.toNat ≤ x.toNat ∧ s.i.toNat + k.toNat < 4096 then s.mem.get (s.i.toNat + k.toNat)
        else s.reg k)

/-- R224, R225: a dump then a load of the same registers at the same I changes no register. -/
def Obligations.LoadUndoesDump : Prop :=
  ∀ (s : State) (x : Nibble), s.memOk → s.pc.toNat ≤ 0x0FFC → s.i.toNat + x.toNat < 4096 →
    ∃ t t', exec (.ldMemVx x) s = .next t ∧ exec (.ldVxMem x) t = .next t' ∧
      (∀ k, t'.reg k = s.reg k) ∧ t'.i = s.i ∧ t'.pc = s.pc + 4 ∧
      SameMemOutside s.i.toNat (x.toNat + 1) s t'

/-- R90, R371: what FX33 and FX55 store is what the very next fetch reads, wherever the stored bytes
lie: over both bytes of the word at PC + 2, over one of them, or over none. -/
def Obligations.NextFetchSeesStore : Prop :=
  ∀ (s : State) (x : Nibble), s.memOk → s.pc.toNat ≤ 0x0FFC →
    (s.i.toNat + 2 < 4096 → ∃ t, exec (.ldB x) s = .next t ∧
      let digits := [(s.reg x).toNat / 100, (s.reg x).toNat / 10 % 10, (s.reg x).toNat % 10]
      let byte := s.byteAfterStore (digits.map (BitVec.ofNat 8))
      t.fetch = .ok (bigEndian (byte (s.pc.toNat + 2)) (byte (s.pc.toNat + 3)))) ∧
    (s.i.toNat + x.toNat < 4096 → ∃ t, exec (.ldMemVx x) s = .next t ∧
      let byte := s.byteAfterStore ((List.range (x.toNat + 1)).map fun k => s.reg (BitVec.ofNat 4 k))
      t.fetch = .ok (bigEndian (byte (s.pc.toNat + 2)) (byte (s.pc.toNat + 3))))

/-! ### Display -/

/-- R250: CLS makes every pixel false in the mode's own grid, and changes nothing else but PC; VF is
unchanged. -/
def Obligations.ClearTurnsPixelsOff : Prop :=
  Encodes 0xF0FF 0x00E0 (fun w => .cls (fieldX w)) ∧
  ∀ (s : State) (u : Nibble), s.fetchable →
    ∃ t, exec (.cls u) s = .next t ∧ t = { s with fb := t.fb, pc := s.pc + 2 } ∧
      t.fb.displayMode = s.fb.displayMode ∧ ∀ r c, t.fb.pixel r c = false

/-- R252, R253 to R257: with all N bytes readable, DRW makes every pixel the XOR of what it was and the
sprite bit on it (origin modulo the grid, body clipped, bit 7 leftmost), writes VF with whether some
pixel went from 1 to 0, and changes nothing else but PC: I, memory and every other register stay.
With a byte at or above 4096 it changes no pixel, no VF and no PC: it only takes
`AddressOutOfRange` at the first such address. -/
def Obligations.DrawXorsSprite : Prop :=
  Encodes 0xF000 0xD000 (fun w => .drw (fieldX w) (fieldY w) (fieldN w)) ∧
  (∀ (s : State) (x y n : Nibble), s.fetchable → (n = 0 ∨ s.i.toNat + n.toNat ≤ 4096) →
    ∃ t, exec (.drw x y n) s = .next t ∧
      t = { s with fb := t.fb, v := t.v, pc := s.pc + 2 } ∧ SameRegsBut [0xF] s t ∧
      t.fb.displayMode = s.fb.displayMode ∧
      (∀ r c, t.fb.pixel r c = (s.fb.pixel r c ^^
        spriteCovers s.fb.displayMode.width s.fb.displayMode.height
          ((List.range n.toNat).map fun k => s.mem.get (s.i.toNat + k))
          (s.reg x).toNat (s.reg y).toNat r c)) ∧
      (t.reg 0xF = 1 ∧ (∃ r c, s.fb.pixel r c = true ∧ t.fb.pixel r c = false) ∨
        t.reg 0xF = 0 ∧ ¬ ∃ r c, s.fb.pixel r c = true ∧ t.fb.pixel r c = false)) ∧
  ∀ (s : State) (x y n : Nibble), n ≠ 0 → 4096 < s.i.toNat + n.toNat →
    exec (.drw x y n) s = .next (s.raise ⟨.addressOutOfRange, max s.i.toNat 4096⟩)

/-- R260: drawing the same sprite twice at the same place restores every pixel, and the second draw
collides exactly when the first turned a pixel on. -/
def Obligations.DrawTwiceRestores : Prop :=
  ∀ (fb : Framebuffer) (bytes : List Byte) (x y : Nat),
    let once := (fb.attachSprite bytes x y).1
    (∀ r c, (once.attachSprite bytes x y).1.pixel r c = fb.pixel r c) ∧
    ((once.attachSprite bytes x y).2 = true ↔
      ∃ r c, fb.pixel r c = false ∧ once.pixel r c = true)

/-- R254: nothing outside the 8 columns and the N rows from the wrapped origin changes, and nothing
wraps to the opposite edge. -/
def Obligations.SpriteBodyClips : Prop :=
  ∀ (fb : Framebuffer) (bytes : List Byte) (x y r c : Nat),
    (r < y % fb.displayMode.height ∨ y % fb.displayMode.height + bytes.length ≤ r ∨
      c < x % fb.displayMode.width ∨ x % fb.displayMode.width + 8 ≤ c) →
    (fb.attachSprite bytes x y).1.pixel r c = fb.pixel r c

/-! ### Keypad and timers -/

/-- R280, R281: SKP and SKNP test the key V[X] names, go to PC + 4 or PC + 2 and change nothing else;
a value above 15 raises `KeyIndexOutOfRange`, PC unchanged. -/
def Obligations.SkipsTestKeys : Prop :=
  Encodes 0xF0FF 0xE09E (fun w => .skp (fieldX w)) ∧
  Encodes 0xF0FF 0xE0A1 (fun w => .sknp (fieldX w)) ∧
  ∀ (s : State) (x : Nibble), s.fetchable →
    (∀ k : Nibble, (s.reg x).toNat = k.toNat →
      exec (.skp x) s = .next { s with pc := if s.key k = true then s.pc + 4 else s.pc + 2 } ∧
      exec (.sknp x) s = .next { s with pc := if s.key k = false then s.pc + 4 else s.pc + 2 }) ∧
    (15 < (s.reg x).toNat →
      exec (.skp x) s = .next (s.raise ⟨.keyIndexOutOfRange, (s.reg x).toNat⟩) ∧
      exec (.sknp x) s = .next (s.raise ⟨.keyIndexOutOfRange, (s.reg x).toNat⟩))

/-- R284: FX0A only enters the wait; PC still holds its address. -/
def Obligations.KeyWaitBegins : Prop :=
  Encodes 0xF0FF 0xF00A (fun w => .ldVxK (fieldX w)) ∧
  ∀ (s : State) (x : Nibble), exec (.ldVxK x) s = .next { s with mode := .waitKey x }

/-- R285: a press of a key not yet down ends the wait: the key is down, V[X] holds its index, PC is
past the FX0A, the mode is RUN, nothing else changed; a press of a key already down is no transition
and changes nothing; a release clears the key's flag and the wait goes on. -/
def Obligations.KeyPressCompletesWait : Prop :=
  ∀ (s : State) (x k : Nibble), s.mode = .waitKey x → s.fetchable →
    (s.key k = false →
      ∃ t, s.event (.keyPress k) = t ∧
        t = { s with keys := t.keys, v := t.v, pc := s.pc + 2, mode := .run } ∧
        (∀ j, t.key j = if j = k then true else s.key j) ∧
        (t.reg x).toNat = k.toNat ∧ SameRegsBut [x] s t) ∧
    (s.key k = true → s.event (.keyPress k) = s) ∧
    ∃ t, s.event (.keyRelease k) = t ∧ t = { s with keys := t.keys } ∧ t.mode = .waitKey x ∧
      ∀ j, t.key j = if j = k then false else s.key j

/-- R286 to R288: the timer instructions copy a timer to a register or a register to a timer, and
change nothing else but PC. -/
def Obligations.TimerTransfers : Prop :=
  Encodes 0xF0FF 0xF007 (fun w => .ldVxDt (fieldX w)) ∧
  Encodes 0xF0FF 0xF015 (fun w => .ldDtVx (fieldX w)) ∧
  Encodes 0xF0FF 0xF018 (fun w => .ldStVx (fieldX w)) ∧
  ∀ (s : State) (x : Nibble), s.fetchable →
    (∃ t, exec (.ldVxDt x) s = .next t ∧ t = { s with v := t.v, pc := s.pc + 2 } ∧
      t.reg x = s.dt ∧ SameRegsBut [x] s t) ∧
    exec (.ldDtVx x) s = .next { s with dt := s.reg x, pc := s.pc + 2 } ∧
    exec (.ldStVx x) s = .next { s with st := s.reg x, pc := s.pc + 2 }

/-- R295: a tick in RUN or WAIT_KEY takes one from each timer that is not 0 and changes nothing
else; in HALTED and STOPPED it changes nothing. -/
def Obligations.TickCountsDown : Prop :=
  ∀ s : State,
    ((s.mode = .run ∨ ∃ x, s.mode = .waitKey x) →
      s.event .tick = { s with
        dt := if s.dt.toNat > 0 then s.dt - 1 else s.dt
        st := if s.st.toNat > 0 then s.st - 1 else s.st }) ∧
    (s.mode = .halted ∨ s.mode = .stopped → s.event .tick = s)

/-- R46: `n` ticks take `n` from each timer, down to 0 and never past it, and change nothing else. -/
def Obligations.TicksReachZero : Prop :=
  ∀ (n : Nat) (s : State), (s.mode = .run ∨ ∃ x, s.mode = .waitKey x) →
    ∃ t, s.events (List.replicate n .tick) = t ∧ t = { s with dt := t.dt, st := t.st } ∧
      t.dt.toNat = s.dt.toNat - n ∧ t.st.toNat = s.st.toNat - n

/-- R290: key events set and clear the key's flag and nothing else (a press in mode RUN, a release in
RUN and WAIT_KEY; in WAIT_KEY a press sets its flag with whatever else it does); in HALTED and STOPPED
they change nothing. -/
def Obligations.KeyEventsWriteKeypad : Prop :=
  ∀ (s : State) (k : Nibble),
    (s.mode = .run → ∃ t, s.event (.keyPress k) = t ∧ t = { s with keys := t.keys } ∧
      ∀ j, t.key j = if j = k then true else s.key j) ∧
    ((s.mode = .run ∨ ∃ x, s.mode = .waitKey x) →
      ∃ t, s.event (.keyRelease k) = t ∧ t = { s with keys := t.keys } ∧
        ∀ j, t.key j = if j = k then false else s.key j) ∧
    ((∃ x, s.mode = .waitKey x) → (s.event (.keyPress k)).key k = true) ∧
    (s.mode = .halted ∨ s.mode = .stopped →
      s.event (.keyPress k) = s ∧ s.event (.keyRelease k) = s)

/-- R137: quit in RUN or WAIT_KEY sets mode STOPPED and changes nothing else. -/
def Obligations.QuitStopsRun : Prop :=
  ∀ s : State, (s.mode = .run ∨ ∃ x, s.mode = .waitKey x) →
    s.event .quit = { s with mode := .stopped }

/-- R20, R44, R45, R49, R268, R326: no event touches memory, the framebuffer, I, the stack or the
environment's schedule; only a tick writes a timer, only a key event the keypad, and only a press in
WAIT_KEY a register or PC; the renderer's read changes nothing. -/
def Obligations.EventsOnlyUpdateInputs : Prop :=
  ∀ (s : State) (e : Event), ∃ t, s.event e = t ∧
    t = { s with
      dt := t.dt, st := t.st, keys := t.keys, v := t.v, pc := t.pc, mode := t.mode
      faultKind := t.faultKind, faultInfo := t.faultInfo } ∧
    (e ≠ .tick → SameTimers s t) ∧
    ((∀ k, e ≠ .keyPress k) → (∀ k, e ≠ .keyRelease k) → SameKeys s t) ∧
    ((∀ x k, s.mode ≠ .waitKey x ∨ e ≠ .keyPress k) →
      t.pc = s.pc ∧ SameRegsBut [] s t ∧ t.faultKind = s.faultKind ∧ t.faultInfo = s.faultInfo) ∧
    (e = .readFrame → t = s)

/-! ### Rules over all instructions -/

/-- R108, R316: no instruction is refused or stuck: `exec` always answers a next state, and in RUN so
does a step. That a step answers one in WAIT_KEY too, where the spec's engine makes no step, is the
model's choice (log entry 17). -/
def Obligations.EveryInstructionAnswers : Prop :=
  (∀ (i : Instr) (s : State), ∃ t, exec i s = .next t) ∧
  ∀ s : State, (s.mode = .run ∨ ∃ x, s.mode = .waitKey x) → ∃ t, step s = .next t

/-- R321, R322: an instruction that ends in a fault leaves PC at its own address, and every one but
FX33, FX55 and FX65 leaves the whole state as it was but for the fault taken. -/
def Obligations.FaultLeavesStateAsBefore : Prop :=
  ∀ (i : Instr) (s t : State), s.fetchable → s.mode = .run → exec i s = .next t →
    t.mode = .halted → t.pc = s.pc ∧ (i.transfers = false → ∃ c, t = s.raise c)

/-- R310 to R316, R323: an instruction that ends in a fault is one the taxonomy names, and its record
is that fault's with the offending address or value; every other instruction never faults. -/
def Obligations.FaultsHaveTheirCause : Prop :=
  ∀ (i : Instr) (s t : State), s.fetchable → s.mode = .run → exec i s = .next t →
    t.mode = .halted →
    match i with
    | .ret _ => s.sp.val = 0 ∧ t.faultKind = .stackUnderflow ∧ t.faultInfo = s.pc.toNat
    | .call _ => s.sp.val = 16 ∧ t.faultKind = .stackOverflow ∧ t.faultInfo = s.pc.toNat
    | .skp x | .sknp x => 15 < (s.reg x).toNat ∧ t.faultKind = .keyIndexOutOfRange ∧
        t.faultInfo = (s.reg x).toNat
    | .addI x => 0xFFFF < s.i.toNat + (s.reg x).toNat ∧ t.faultKind = .valueOutOfRange ∧
        t.faultInfo = s.i.toNat + (s.reg x).toNat
    | .drw _ _ n => 4096 < s.i.toNat + n.toNat ∧ t.faultKind = .addressOutOfRange ∧
        t.faultInfo = max s.i.toNat 4096
    | .ldB _ => 4096 < s.i.toNat + 3 ∧ t.faultKind = .addressOutOfRange ∧
        t.faultInfo = max s.i.toNat 4096
    | .ldMemVx x | .ldVxMem x => 4096 < s.i.toNat + (x.toNat + 1) ∧
        t.faultKind = .addressOutOfRange ∧ t.faultInfo = max s.i.toNat 4096
    | _ => False

/-- R36, R37, R134: every instruction but the transfers, the skips and FX0A, when it does not fault,
ends with PC + 2. -/
def Obligations.DefaultAdvance : Prop :=
  ∀ (i : Instr) (s t : State), s.fetchable → s.mode = .run → i.advances = true →
    exec i s = .next t → t.mode ≠ .halted → t.pc = s.pc + 2

/-- R34, R40, R43 to R45, R48, R49, R75, R226: which instructions write which state, for every
instruction and every next state, a fault's included: I by ANNN, FX1E, FX29; memory by FX33, FX55;
the framebuffer by CLS, DRW; DT by FX15; ST by FX18; the stack by CALL and RET; the keypad, the
display mode and the environment's schedule by none. -/
def Obligations.OnlyNamedInstructionsWrite : Prop :=
  ∀ (i : Instr) (s t : State), exec i s = .next t →
    ((∀ n, i ≠ .ldI n) → (∀ x, i ≠ .addI x) → (∀ x, i ≠ .ldF x) → t.i = s.i) ∧
    ((∀ x, i ≠ .ldB x) → (∀ x, i ≠ .ldMemVx x) → SameMem s t) ∧
    ((∀ u, i ≠ .cls u) → (∀ x y n, i ≠ .drw x y n) → SameDisplay s t) ∧
    ((∀ x, i ≠ .ldDtVx x) → t.dt = s.dt) ∧ ((∀ x, i ≠ .ldStVx x) → t.st = s.st) ∧
    ((∀ n, i ≠ .call n) → (∀ u, i ≠ .ret u) → SameStack s t) ∧
    ((∀ x nn, i ≠ .rnd x nn) → t.draws = s.draws) ∧
    SameKeys s t ∧ t.fb.displayMode = s.fb.displayMode ∧ t.schedule = s.schedule

/-- R51: outside a fault no instruction touches the fault record, and only FX0A changes the mode. -/
def Obligations.StatusOnlyByFaultOrWait : Prop :=
  ∀ (i : Instr) (s t : State), exec i s = .next t → t.mode ≠ .halted →
    t.faultKind = s.faultKind ∧ t.faultInfo = s.faultInfo ∧
    ((∀ x, i ≠ .ldVxK x) → t.mode = s.mode)

/-! ### Invariants -/

/-- R8, R52, R72: every step keeps memory in its canonical form, no address at or above 4096 listed. -/
def Obligations.MemoryFormKept : Prop :=
  ∀ s t : State, s.memOk → step s = .next t → t.memOk

/-- R38, R39, R284: every step keeps the bounds: PC at most 0x10FE, every stack entry at most 0x1000;
and that in WAIT_KEY(x) the instruction at PC is LD Vx, K with that x. -/
def Obligations.PcStaysBounded : Prop :=
  ∀ s t : State, s.PcOk → step s = .next t → t.PcOk

/-- R50, R51, R320: every step keeps the fault record naming a fault exactly in mode HALTED. -/
def Obligations.FaultRecordKept : Prop :=
  ∀ s t : State, s.RecordOk → step s = .next t → t.RecordOk

/-- R13: no step changes the display mode. -/
def Obligations.DisplayModeFixed : Prop :=
  ∀ s t : State, step s = .next t → t.fb.displayMode = s.fb.displayMode

/-- The three invariants hold at reset. -/
def Obligations.ResetMeetsInvariants : Prop :=
  State.reset.memOk ∧ State.reset.PcOk ∧ State.reset.RecordOk

/-! ### Reset -/

/-- R55, R350: after a reset with a ROM that fits, every register, timer and stack entry is 0, PC is
0x200, the stack is empty, every pixel and key is false, the mode is RUN with no fault recorded, and
memory holds the font, the ROM from 0x200 and zeros elsewhere. -/
def Obligations.PowerOnState : Prop :=
  ∀ (bytes : List Byte) (d : DisplayMode), bytes.length ≤ 3584 →
    ∃ s, State.powerOn (.image bytes) d = s ∧
      (∀ x, s.reg x = 0) ∧ s.i = 0 ∧ s.pc = 0x200 ∧ s.dt = 0 ∧ s.st = 0 ∧ s.sp.val = 0 ∧
      (∀ n, s.stackEntry n = 0) ∧ s.fb.displayMode = d ∧ (∀ r c, s.fb.pixel r c = false) ∧
      (∀ k, s.key k = false) ∧ s.mode = .run ∧ s.faultKind = .none ∧ s.faultInfo = 0 ∧
      ∀ a, s.mem.get a =
        if 0x200 ≤ a ∧ a < 0x200 + bytes.length then bytes.getD (a - 0x200) 0
        else if fontBase ≤ a ∧ a < fontBase + 80 then fontBytes.getD (a - fontBase) 0
        else 0

/-- R24, R315, the faults no instruction raises. R352, R353: an unreadable ROM stream and a ROM longer
than 3584 bytes leave the core HALTED with the fault record set, no ROM byte copied. R33, R310 and
93_implementation_defined.md U11: so does, in RUN and WAIT_KEY, an access at the register file's own
interface with an index above 15, code 2 with the index. Up to 15 that interface's read gives `V[n]` and
changes nothing, and its write stores the value modulo 256 in `V[n]` alone (R32, R33; the source's example
W3): this is the register file's write, not one the host has, since R143 lets no host write a register of
a running core. In HALTED and STOPPED neither changes anything (R136). That the interface stands as
operations of the model is log entry 16 (DEDUCED). -/
def Obligations.RomFaultsHalt : Prop :=
  (∀ (bytes : List Byte) (d : DisplayMode),
    State.powerOn .unreadable d = (State.resetIn d).raise ⟨.romLoadError, 0⟩ ∧
    (3584 < bytes.length →
      State.powerOn (.image bytes) d = (State.resetIn d).raise ⟨.romTooLarge, bytes.length⟩)) ∧
  ∀ (s : State) (n value : Nat),
    (n ≤ 15 → s.regFileRead n = (some (s.reg (BitVec.ofNat 4 n)), s)) ∧
    ((s.mode = .run ∨ ∃ x, s.mode = .waitKey x) →
      (n ≤ 15 → ∃ t, s.regFileWrite n value = t ∧ t = { s with v := t.v } ∧
        (t.reg (BitVec.ofNat 4 n)).toNat = value % 256 ∧ SameRegsBut [BitVec.ofNat 4 n] s t) ∧
      (15 < n → s.regFileRead n = (none, s.raise ⟨.registerIndexOutOfRange, n⟩) ∧
        s.regFileWrite n value = s.raise ⟨.registerIndexOutOfRange, n⟩)) ∧
    (s.mode = .halted ∨ s.mode = .stopped →
      (s.regFileRead n).2 = s ∧ s.regFileWrite n value = s)

/-- Every reset, with any ROM in either display mode, meets the three invariants, and the reset state
of the interface is the reset with no ROM byte in the default mode. -/
def Obligations.PowerOnMeetsInvariants : Prop :=
  (∀ (rom : RomStream) (d : DisplayMode), (State.powerOn rom d).memOk ∧ (State.powerOn rom d).PcOk ∧
    (State.powerOn rom d).RecordOk) ∧
  State.powerOn (.image []) .chip8 = State.reset
end

