-- ==== Sys2Proof/Laws/Decode.lean ====
section
/-! SUPPORT. The fields of the words the encoder builds, a word rebuilt from its fields, words under the
opcode map's masks, the decoder group by group, and a word's bytes. -/

namespace Sys2Proof

/-! ### Fields of built words -/

@[simp] theorem fieldOp_wordXYN (op x y n : Nibble) : fieldOp (wordXYN op x y n) = op := by
  simp only [fieldOp, wordXYN]; ext i hi; simp; grind
@[simp] theorem fieldX_wordXYN (op x y n : Nibble) : fieldX (wordXYN op x y n) = x := by
  simp only [fieldX, wordXYN]; ext i hi; simp; grind
@[simp] theorem fieldY_wordXYN (op x y n : Nibble) : fieldY (wordXYN op x y n) = y := by
  simp only [fieldY, wordXYN]; ext i hi; simp; grind
@[simp] theorem fieldN_wordXYN (op x y n : Nibble) : fieldN (wordXYN op x y n) = n := by
  simp only [fieldN, wordXYN]; ext i hi; simp; grind

@[simp] theorem fieldOp_wordXNN (op x : Nibble) (nn : Byte) : fieldOp (wordXNN op x nn) = op := by
  simp only [fieldOp, wordXNN]; ext i hi; simp; grind
@[simp] theorem fieldX_wordXNN (op x : Nibble) (nn : Byte) : fieldX (wordXNN op x nn) = x := by
  simp only [fieldX, wordXNN]; ext i hi; simp; grind
@[simp] theorem fieldNN_wordXNN (op x : Nibble) (nn : Byte) : fieldNN (wordXNN op x nn) = nn := by
  simp only [fieldNN, wordXNN]; ext i hi; simp; grind

@[simp] theorem fieldOp_wordNNN (op : Nibble) (nnn : Addr12) : fieldOp (wordNNN op nnn) = op := by
  simp only [fieldOp, wordNNN]; ext i hi; simp; grind
@[simp] theorem fieldNNN_wordNNN (op : Nibble) (nnn : Addr12) :
    fieldNNN (wordNNN op nnn) = nnn := by
  simp only [fieldNNN, wordNNN]; ext i hi; simp; grind
@[simp] theorem fieldNN_wordNNN (op : Nibble) (nnn : Addr12) :
    fieldNN (wordNNN op nnn) = nnn.setWidth 8 := by
  simp only [fieldNN, wordNNN]; ext i hi; simp; grind

/-! ### A word from its own fields -/

theorem wordXYN_fields (w : Word) : wordXYN (fieldOp w) (fieldX w) (fieldY w) (fieldN w) = w := by
  simp only [fieldOp, fieldX, fieldY, fieldN, wordXYN]; ext i hi; simp; grind
theorem wordXNN_fields (w : Word) : wordXNN (fieldOp w) (fieldX w) (fieldNN w) = w := by
  simp only [fieldOp, fieldX, fieldNN, wordXNN]; ext i hi; simp; grind
theorem wordNNN_fields (w : Word) : wordNNN (fieldOp w) (fieldNNN w) = w := by
  simp only [fieldOp, fieldNNN, wordNNN]; ext i hi; simp; grind
theorem fieldNNN_low (w : Word) : (fieldNNN w).setWidth 8 = fieldNN w := by
  simp only [fieldNNN, fieldNN]; ext i hi; simp; grind

/-! ### A word under the three masks of the opcode map (R106) -/

theorem mask_op_bit : ∀ i : Fin 16, (0xF000 : Word)[i] = decide (12 ≤ i.val) := by decide
theorem mask_key8_bit : ∀ i : Fin 16,
    (0xF0FF : Word)[i] = decide (12 ≤ i.val ∨ i.val < 8) := by decide
theorem mask_key4_bit : ∀ i : Fin 16,
    (0xF00F : Word)[i] = decide (12 ≤ i.val ∨ i.val < 4) := by decide
theorem mask_XNN (op x : Nibble) (nn : Byte) :
    wordXNN op x nn &&& 0xF000 = wordXNN op 0 0 := by
  simp only [wordXNN]; ext i hi
  have := mask_op_bit ⟨i, hi⟩; simp at this; simp [this]; grind

theorem mask_XYN (op x y n : Nibble) :
    wordXYN op x y n &&& 0xF000 = wordXNN op 0 0 := by
  simp only [wordXNN, wordXYN]; ext i hi
  have := mask_op_bit ⟨i, hi⟩; simp at this; simp [this]; grind

theorem mask_NNN (op : Nibble) (nnn : Addr12) :
    wordNNN op nnn &&& 0xF000 = wordXNN op 0 0 := by
  simp only [wordXNN, wordNNN]; ext i hi
  have := mask_op_bit ⟨i, hi⟩; simp at this; simp [this]; grind

theorem mask_key8 (op x : Nibble) (nn : Byte) :
    wordXNN op x nn &&& 0xF0FF = wordXNN op 0 nn := by
  simp only [wordXNN]; ext i hi
  have := mask_key8_bit ⟨i, hi⟩; simp at this; simp [this]; grind

theorem mask_key4 (op x y n : Nibble) :
    wordXYN op x y n &&& 0xF00F = wordXYN op 0 0 n := by
  simp only [wordXYN]; ext i hi
  have := mask_key4_bit ⟨i, hi⟩; simp at this; simp [this]; grind

/-! ### The keys of a word whose bits under a mask are known -/

theorem op_of_mask_F000 {w k : Word} (h : w &&& 0xF000 = k) : fieldOp w = fieldOp k := by
  subst h; simp only [fieldOp]; ext i hi
  have := mask_op_bit ⟨12 + i, by omega⟩; simp at this; simp; grind

theorem op_of_mask_F0FF {w k : Word} (h : w &&& 0xF0FF = k) : fieldOp w = fieldOp k := by
  subst h; simp only [fieldOp]; ext i hi
  have := mask_key8_bit ⟨12 + i, by omega⟩; simp at this; simp; grind

theorem key8_of_mask_F0FF {w k : Word} (h : w &&& 0xF0FF = k) : fieldNN w = fieldNN k := by
  subst h; simp only [fieldNN]; ext i hi
  have := mask_key8_bit ⟨i, by omega⟩; simp at this; simp; grind

theorem op_of_mask_F00F {w k : Word} (h : w &&& 0xF00F = k) : fieldOp w = fieldOp k := by
  subst h; simp only [fieldOp]; ext i hi
  have := mask_key4_bit ⟨12 + i, by omega⟩; simp at this; simp; grind

theorem key4_of_mask_F00F {w k : Word} (h : w &&& 0xF00F = k) : fieldN w = fieldN k := by
  subst h; simp only [fieldN]; ext i hi
  have := mask_key4_bit ⟨i, by omega⟩; simp at this; simp; grind

/-! ### The dispatch by group (R104, R105) -/

/-- A nibble is one of sixteen. -/
theorem nibble_cases (a : Nibble) :
    a = 0 ∨ a = 1 ∨ a = 2 ∨ a = 3 ∨ a = 4 ∨ a = 5 ∨ a = 6 ∨ a = 7 ∨ a = 8 ∨ a = 9 ∨ a = 10 ∨
      a = 11 ∨ a = 12 ∨ a = 13 ∨ a = 14 ∨ a = 15 := by
  revert a; decide

section
variable {w : Word}
theorem decode_op0 (h : fieldOp w = 0) : decode w = decodeGroup0 w := by simp [decode, h]
theorem decode_op1 (h : fieldOp w = 1) : decode w = .jp (fieldNNN w) := by simp [decode, h]
theorem decode_op2 (h : fieldOp w = 2) : decode w = .call (fieldNNN w) := by simp [decode, h]
theorem decode_op3 (h : fieldOp w = 3) : decode w = .seImm (fieldX w) (fieldNN w) := by simp [decode, h]
theorem decode_op4 (h : fieldOp w = 4) : decode w = .sneImm (fieldX w) (fieldNN w) := by simp [decode, h]
theorem decode_op5 (h : fieldOp w = 5) : decode w = .seReg (fieldX w) (fieldY w) (fieldN w) := by simp [decode, h]
theorem decode_op6 (h : fieldOp w = 6) : decode w = .ldImm (fieldX w) (fieldNN w) := by simp [decode, h]
theorem decode_op7 (h : fieldOp w = 7) : decode w = .addImm (fieldX w) (fieldNN w) := by simp [decode, h]
theorem decode_op8 (h : fieldOp w = 8) : decode w = decodeGroup8 w := by simp [decode, h]
theorem decode_op9 (h : fieldOp w = 9) : decode w = .sneReg (fieldX w) (fieldY w) (fieldN w) := by simp [decode, h]
theorem decode_opA (h : fieldOp w = 10) : decode w = .ldI (fieldNNN w) := by simp [decode, h]
theorem decode_opB (h : fieldOp w = 11) : decode w = .jpV0 (fieldNNN w) := by simp [decode, h]
theorem decode_opC (h : fieldOp w = 12) : decode w = .rnd (fieldX w) (fieldNN w) := by simp [decode, h]
theorem decode_opD (h : fieldOp w = 13) : decode w = .drw (fieldX w) (fieldY w) (fieldN w) := by simp [decode, h]
theorem decode_opE (h : fieldOp w = 14) : decode w = decodeGroupE w := by simp [decode, h]
theorem decode_opF (h : fieldOp w = 15) : decode w = decodeGroupF w := by simp [decode, h]
end

/-! ### Bytes of a word -/

/-- A word's two bytes, the high one first, are the word (R78). -/
@[simp] theorem bigEndian_bytes (w : Word) : bigEndian (highByte w) (lowByte w) = w := by
  simp only [bigEndian, highByte, lowByte]; ext i hi; simp; grind

/-- Decoding the bytes of an encoded instruction is decoding its word, and leaves the rest. -/
theorem decodeBytes_encodeBytes (i : Instr) (rest : List Byte) :
    decodeBytes (encodeBytes i ++ rest) = .ok (decode (encode i), rest) := by
  simp [encodeBytes, decodeBytes]

end Sys2Proof
end

