-- ==== Sys2Proof/Laws/State.lean ====
section
/-! SUPPORT. One lemma per field per named update of the state, so that no later proof unfolds a record
update; and what the register, key and stack accessors read after each update. -/

namespace Sys2Proof.Machine

variable (s : State)

/-! ### setReg -/

@[simp] theorem State.setReg_i (x : Nibble) (b : Byte) : (s.setReg x b).i = s.i := rfl
@[simp] theorem State.setReg_pc (x : Nibble) (b : Byte) : (s.setReg x b).pc = s.pc := rfl
@[simp] theorem State.setReg_stack (x : Nibble) (b : Byte) : (s.setReg x b).stack = s.stack := rfl
@[simp] theorem State.setReg_sp (x : Nibble) (b : Byte) : (s.setReg x b).sp = s.sp := rfl
@[simp] theorem State.setReg_dt (x : Nibble) (b : Byte) : (s.setReg x b).dt = s.dt := rfl
@[simp] theorem State.setReg_st (x : Nibble) (b : Byte) : (s.setReg x b).st = s.st := rfl
@[simp] theorem State.setReg_fb (x : Nibble) (b : Byte) : (s.setReg x b).fb = s.fb := rfl
@[simp] theorem State.setReg_keys (x : Nibble) (b : Byte) : (s.setReg x b).keys = s.keys := rfl
@[simp] theorem State.setReg_mode (x : Nibble) (b : Byte) : (s.setReg x b).mode = s.mode := rfl
@[simp] theorem State.setReg_faultKind (x : Nibble) (b : Byte) : (s.setReg x b).faultKind = s.faultKind := rfl
@[simp] theorem State.setReg_faultInfo (x : Nibble) (b : Byte) : (s.setReg x b).faultInfo = s.faultInfo := rfl
@[simp] theorem State.setReg_mem (x : Nibble) (b : Byte) : (s.setReg x b).mem = s.mem := rfl
@[simp] theorem State.setReg_draws (x : Nibble) (b : Byte) : (s.setReg x b).draws = s.draws := rfl
@[simp] theorem State.setReg_schedule (x : Nibble) (b : Byte) : (s.setReg x b).schedule = s.schedule := rfl

/-! ### raise -/

@[simp] theorem State.raise_v (c : Condition) : (s.raise c).v = s.v := rfl
@[simp] theorem State.raise_i (c : Condition) : (s.raise c).i = s.i := rfl
@[simp] theorem State.raise_pc (c : Condition) : (s.raise c).pc = s.pc := rfl
@[simp] theorem State.raise_stack (c : Condition) : (s.raise c).stack = s.stack := rfl
@[simp] theorem State.raise_sp (c : Condition) : (s.raise c).sp = s.sp := rfl
@[simp] theorem State.raise_dt (c : Condition) : (s.raise c).dt = s.dt := rfl
@[simp] theorem State.raise_st (c : Condition) : (s.raise c).st = s.st := rfl
@[simp] theorem State.raise_fb (c : Condition) : (s.raise c).fb = s.fb := rfl
@[simp] theorem State.raise_keys (c : Condition) : (s.raise c).keys = s.keys := rfl
@[simp] theorem State.raise_mode (c : Condition) : (s.raise c).mode = .halted := rfl
@[simp] theorem State.raise_faultKind (c : Condition) : (s.raise c).faultKind = c.kind := rfl
@[simp] theorem State.raise_faultInfo (c : Condition) : (s.raise c).faultInfo = c.info := rfl
@[simp] theorem State.raise_mem (c : Condition) : (s.raise c).mem = s.mem := rfl
@[simp] theorem State.raise_draws (c : Condition) : (s.raise c).draws = s.draws := rfl
@[simp] theorem State.raise_schedule (c : Condition) : (s.raise c).schedule = s.schedule := rfl

/-! ### jump -/

@[simp] theorem State.jump_v (w : Word) : (s.jump w).v = s.v := rfl
@[simp] theorem State.jump_i (w : Word) : (s.jump w).i = s.i := rfl
@[simp] theorem State.jump_pc (w : Word) : (s.jump w).pc = w := rfl
@[simp] theorem State.jump_stack (w : Word) : (s.jump w).stack = s.stack := rfl
@[simp] theorem State.jump_sp (w : Word) : (s.jump w).sp = s.sp := rfl
@[simp] theorem State.jump_dt (w : Word) : (s.jump w).dt = s.dt := rfl
@[simp] theorem State.jump_st (w : Word) : (s.jump w).st = s.st := rfl
@[simp] theorem State.jump_fb (w : Word) : (s.jump w).fb = s.fb := rfl
@[simp] theorem State.jump_keys (w : Word) : (s.jump w).keys = s.keys := rfl
@[simp] theorem State.jump_mode (w : Word) : (s.jump w).mode = s.mode := rfl
@[simp] theorem State.jump_faultKind (w : Word) : (s.jump w).faultKind = s.faultKind := rfl
@[simp] theorem State.jump_faultInfo (w : Word) : (s.jump w).faultInfo = s.faultInfo := rfl
@[simp] theorem State.jump_mem (w : Word) : (s.jump w).mem = s.mem := rfl
@[simp] theorem State.jump_draws (w : Word) : (s.jump w).draws = s.draws := rfl
@[simp] theorem State.jump_schedule (w : Word) : (s.jump w).schedule = s.schedule := rfl

/-! ### setKey -/

@[simp] theorem State.setKey_v (k : Nibble) (d : Bool) : (s.setKey k d).v = s.v := rfl
@[simp] theorem State.setKey_i (k : Nibble) (d : Bool) : (s.setKey k d).i = s.i := rfl
@[simp] theorem State.setKey_pc (k : Nibble) (d : Bool) : (s.setKey k d).pc = s.pc := rfl
@[simp] theorem State.setKey_stack (k : Nibble) (d : Bool) : (s.setKey k d).stack = s.stack := rfl
@[simp] theorem State.setKey_sp (k : Nibble) (d : Bool) : (s.setKey k d).sp = s.sp := rfl
@[simp] theorem State.setKey_dt (k : Nibble) (d : Bool) : (s.setKey k d).dt = s.dt := rfl
@[simp] theorem State.setKey_st (k : Nibble) (d : Bool) : (s.setKey k d).st = s.st := rfl
@[simp] theorem State.setKey_fb (k : Nibble) (d : Bool) : (s.setKey k d).fb = s.fb := rfl
@[simp] theorem State.setKey_mode (k : Nibble) (d : Bool) : (s.setKey k d).mode = s.mode := rfl
@[simp] theorem State.setKey_faultKind (k : Nibble) (d : Bool) : (s.setKey k d).faultKind = s.faultKind := rfl
@[simp] theorem State.setKey_faultInfo (k : Nibble) (d : Bool) : (s.setKey k d).faultInfo = s.faultInfo := rfl
@[simp] theorem State.setKey_mem (k : Nibble) (d : Bool) : (s.setKey k d).mem = s.mem := rfl
@[simp] theorem State.setKey_draws (k : Nibble) (d : Bool) : (s.setKey k d).draws = s.draws := rfl
@[simp] theorem State.setKey_schedule (k : Nibble) (d : Bool) : (s.setKey k d).schedule = s.schedule := rfl

/-! ### setFlag -/

@[simp] theorem State.setFlag_i (f : Bool) : (s.setFlag f).i = s.i := rfl
@[simp] theorem State.setFlag_pc (f : Bool) : (s.setFlag f).pc = s.pc := rfl
@[simp] theorem State.setFlag_stack (f : Bool) : (s.setFlag f).stack = s.stack := rfl
@[simp] theorem State.setFlag_sp (f : Bool) : (s.setFlag f).sp = s.sp := rfl
@[simp] theorem State.setFlag_dt (f : Bool) : (s.setFlag f).dt = s.dt := rfl
@[simp] theorem State.setFlag_st (f : Bool) : (s.setFlag f).st = s.st := rfl
@[simp] theorem State.setFlag_fb (f : Bool) : (s.setFlag f).fb = s.fb := rfl
@[simp] theorem State.setFlag_keys (f : Bool) : (s.setFlag f).keys = s.keys := rfl
@[simp] theorem State.setFlag_mode (f : Bool) : (s.setFlag f).mode = s.mode := rfl
@[simp] theorem State.setFlag_faultKind (f : Bool) : (s.setFlag f).faultKind = s.faultKind := rfl
@[simp] theorem State.setFlag_faultInfo (f : Bool) : (s.setFlag f).faultInfo = s.faultInfo := rfl
@[simp] theorem State.setFlag_mem (f : Bool) : (s.setFlag f).mem = s.mem := rfl
@[simp] theorem State.setFlag_draws (f : Bool) : (s.setFlag f).draws = s.draws := rfl
@[simp] theorem State.setFlag_schedule (f : Bool) : (s.setFlag f).schedule = s.schedule := rfl

/-! ### setRegFlag -/

@[simp] theorem State.setRegFlag_i (x : Nibble) (r : Byte) (f : Bool) : (s.setRegFlag x r f).i = s.i := rfl
@[simp] theorem State.setRegFlag_pc (x : Nibble) (r : Byte) (f : Bool) : (s.setRegFlag x r f).pc = s.pc := rfl
@[simp] theorem State.setRegFlag_stack (x : Nibble) (r : Byte) (f : Bool) : (s.setRegFlag x r f).stack = s.stack := rfl
@[simp] theorem State.setRegFlag_sp (x : Nibble) (r : Byte) (f : Bool) : (s.setRegFlag x r f).sp = s.sp := rfl
@[simp] theorem State.setRegFlag_dt (x : Nibble) (r : Byte) (f : Bool) : (s.setRegFlag x r f).dt = s.dt := rfl
@[simp] theorem State.setRegFlag_st (x : Nibble) (r : Byte) (f : Bool) : (s.setRegFlag x r f).st = s.st := rfl
@[simp] theorem State.setRegFlag_fb (x : Nibble) (r : Byte) (f : Bool) : (s.setRegFlag x r f).fb = s.fb := rfl
@[simp] theorem State.setRegFlag_keys (x : Nibble) (r : Byte) (f : Bool) : (s.setRegFlag x r f).keys = s.keys := rfl
@[simp] theorem State.setRegFlag_mode (x : Nibble) (r : Byte) (f : Bool) : (s.setRegFlag x r f).mode = s.mode := rfl
@[simp] theorem State.setRegFlag_faultKind (x : Nibble) (r : Byte) (f : Bool) : (s.setRegFlag x r f).faultKind = s.faultKind := rfl
@[simp] theorem State.setRegFlag_faultInfo (x : Nibble) (r : Byte) (f : Bool) : (s.setRegFlag x r f).faultInfo = s.faultInfo := rfl
@[simp] theorem State.setRegFlag_mem (x : Nibble) (r : Byte) (f : Bool) : (s.setRegFlag x r f).mem = s.mem := rfl
@[simp] theorem State.setRegFlag_draws (x : Nibble) (r : Byte) (f : Bool) : (s.setRegFlag x r f).draws = s.draws := rfl
@[simp] theorem State.setRegFlag_schedule (x : Nibble) (r : Byte) (f : Bool) : (s.setRegFlag x r f).schedule = s.schedule := rfl

/-! ### tick -/

@[simp] theorem State.tick_v : s.tick.v = s.v := rfl
@[simp] theorem State.tick_i : s.tick.i = s.i := rfl
@[simp] theorem State.tick_pc : s.tick.pc = s.pc := rfl
@[simp] theorem State.tick_stack : s.tick.stack = s.stack := rfl
@[simp] theorem State.tick_sp : s.tick.sp = s.sp := rfl
@[simp] theorem State.tick_dt : s.tick.dt = countDown s.dt := rfl
@[simp] theorem State.tick_st : s.tick.st = countDown s.st := rfl
@[simp] theorem State.tick_fb : s.tick.fb = s.fb := rfl
@[simp] theorem State.tick_keys : s.tick.keys = s.keys := rfl
@[simp] theorem State.tick_mode : s.tick.mode = s.mode := rfl
@[simp] theorem State.tick_faultKind : s.tick.faultKind = s.faultKind := rfl
@[simp] theorem State.tick_faultInfo : s.tick.faultInfo = s.faultInfo := rfl
@[simp] theorem State.tick_mem : s.tick.mem = s.mem := rfl
@[simp] theorem State.tick_draws : s.tick.draws = s.draws := rfl
@[simp] theorem State.tick_schedule : s.tick.schedule = s.schedule := rfl

/-! ### pass -/

@[simp] theorem State.pass_v : s.pass.v = s.v := rfl
@[simp] theorem State.pass_i : s.pass.i = s.i := rfl
@[simp] theorem State.pass_pc : s.pass.pc = s.pc := rfl
@[simp] theorem State.pass_stack : s.pass.stack = s.stack := rfl
@[simp] theorem State.pass_sp : s.pass.sp = s.sp := rfl
@[simp] theorem State.pass_dt : s.pass.dt = s.dt := rfl
@[simp] theorem State.pass_st : s.pass.st = s.st := rfl
@[simp] theorem State.pass_fb : s.pass.fb = s.fb := rfl
@[simp] theorem State.pass_keys : s.pass.keys = s.keys := rfl
@[simp] theorem State.pass_mode : s.pass.mode = s.mode := rfl
@[simp] theorem State.pass_faultKind : s.pass.faultKind = s.faultKind := rfl
@[simp] theorem State.pass_faultInfo : s.pass.faultInfo = s.faultInfo := rfl
@[simp] theorem State.pass_mem : s.pass.mem = s.mem := rfl
@[simp] theorem State.pass_draws : s.pass.draws = s.draws := rfl
@[simp] theorem State.pass_schedule : s.pass.schedule = s.schedule.tail := rfl

/-! ### Accessors -/

/-- Reading a register reads the register file alone. -/
theorem State.reg_congr {s t : State} (h : t.v = s.v) (x : Nibble) : t.reg x = s.reg x := by
  simp [State.reg, h]

/-- Reading a key reads the keypad alone. -/
theorem State.key_congr {s t : State} (h : t.keys = s.keys) (k : Nibble) : t.key k = s.key k := by
  simp [State.key, h]

/-- Reading a stack entry reads the stack alone. -/
theorem State.stackEntry_congr {s t : State} (h : t.stack = s.stack) (n : Nat) :
    t.stackEntry n = s.stackEntry n := by
  simp [State.stackEntry, h]

@[simp] theorem State.reg_setReg (x y : Nibble) (b : Byte) :
    (s.setReg x b).reg y = if y = x then b else s.reg y := by
  by_cases h : y = x
  · simp [State.reg, State.setReg, h]
  · have : x.toNat ≠ y.toNat := fun e => h (BitVec.eq_of_toNat_eq e).symm
    simp [State.reg, State.setReg, h, this]

@[simp] theorem State.key_setKey (k j : Nibble) (d : Bool) :
    (s.setKey k d).key j = if j = k then d else s.key j := by
  by_cases h : j = k
  · simp [State.key, State.setKey, h]
  · have : k.toNat ≠ j.toNat := fun e => h (BitVec.eq_of_toNat_eq e).symm
    simp [State.key, State.setKey, h, this]

@[simp] theorem State.reg_setFlag (f : Bool) (y : Nibble) :
    (s.setFlag f).reg y = if y = flagReg then flagByte f else s.reg y := by
  simp [State.setFlag]

/-- Result first, flag second: VF ends with the flag (R192). -/
@[simp] theorem State.reg_setRegFlag (x : Nibble) (r : Byte) (f : Bool) (y : Nibble) :
    (s.setRegFlag x r f).reg y =
      if y = flagReg then flagByte f else if y = x then r else s.reg y := by
  simp [State.setRegFlag]

@[simp] theorem State.key_setReg (x : Nibble) (b : Byte) (j : Nibble) : (s.setReg x b).key j = s.key j := rfl
@[simp] theorem State.stackEntry_setReg (x : Nibble) (b : Byte) (n : Nat) : (s.setReg x b).stackEntry n = s.stackEntry n := rfl
@[simp] theorem State.reg_raise (c : Condition) (y : Nibble) : (s.raise c).reg y = s.reg y := rfl
@[simp] theorem State.key_raise (c : Condition) (j : Nibble) : (s.raise c).key j = s.key j := rfl
@[simp] theorem State.stackEntry_raise (c : Condition) (n : Nat) : (s.raise c).stackEntry n = s.stackEntry n := rfl
@[simp] theorem State.reg_jump (w : Word) (y : Nibble) : (s.jump w).reg y = s.reg y := rfl
@[simp] theorem State.key_jump (w : Word) (j : Nibble) : (s.jump w).key j = s.key j := rfl
@[simp] theorem State.stackEntry_jump (w : Word) (n : Nat) : (s.jump w).stackEntry n = s.stackEntry n := rfl
@[simp] theorem State.reg_setKey (k : Nibble) (d : Bool) (y : Nibble) : (s.setKey k d).reg y = s.reg y := rfl
@[simp] theorem State.stackEntry_setKey (k : Nibble) (d : Bool) (n : Nat) : (s.setKey k d).stackEntry n = s.stackEntry n := rfl
@[simp] theorem State.key_setFlag (f : Bool) (j : Nibble) : (s.setFlag f).key j = s.key j := rfl
@[simp] theorem State.stackEntry_setFlag (f : Bool) (n : Nat) : (s.setFlag f).stackEntry n = s.stackEntry n := rfl
@[simp] theorem State.key_setRegFlag (x : Nibble) (r : Byte) (f : Bool) (j : Nibble) : (s.setRegFlag x r f).key j = s.key j := rfl
@[simp] theorem State.stackEntry_setRegFlag (x : Nibble) (r : Byte) (f : Bool) (n : Nat) : (s.setRegFlag x r f).stackEntry n = s.stackEntry n := rfl
@[simp] theorem State.reg_tick (y : Nibble) : s.tick.reg y = s.reg y := rfl
@[simp] theorem State.key_tick (j : Nibble) : s.tick.key j = s.key j := rfl
@[simp] theorem State.stackEntry_tick (n : Nat) : s.tick.stackEntry n = s.stackEntry n := rfl
@[simp] theorem State.reg_pass (y : Nibble) : s.pass.reg y = s.reg y := rfl
@[simp] theorem State.key_pass (j : Nibble) : s.pass.key j = s.key j := rfl
@[simp] theorem State.stackEntry_pass (n : Nat) : s.pass.stackEntry n = s.stackEntry n := rfl

/-! ### Accessors of a state written out -/

section
variable (f0 : Vector Byte 16) (f1 : Word) (f2 : Word) (f3 : Vector Word 16) (f4 : Fin 17) (f5 : Byte) (f6 : Byte) (f7 : Framebuffer) 
  (f8 : Vector Bool 16) (f9 : Mode) (f10 : FaultKind) (f11 : Nat) (f12 : Memory) (f13 : Nat) (f14 : List (List Event))

@[simp] theorem State.reg_mk (x : Nibble) :
    State.reg ⟨s.v, f1, f2, f3, f4, f5, f6, f7, f8, f9, f10, f11, f12, f13, f14⟩ x =
      s.reg x := rfl
@[simp] theorem State.key_mk (x : Nibble) :
    State.key ⟨f0, f1, f2, f3, f4, f5, f6, f7, s.keys, f9, f10, f11, f12, f13, f14⟩ x =
      s.key x := rfl
@[simp] theorem State.stackEntry_mk (x : Nat) :
    State.stackEntry ⟨f0, f1, f2, s.stack, f4, f5, f6, f7, f8, f9, f10, f11, f12, f13, f14⟩ x =
      s.stackEntry x := rfl

end

end Sys2Proof.Machine
end

