-- ==== Sys2Proof/Laws/Memory.lean ====
section
/-! SUPPORT. Memory: a read after a write, and the canonical form kept by every memory operation. -/

namespace Sys2Proof.Machine

/-! ### Reads after writes -/

theorem Memory.get_cons (a : Nat) (b : Byte) (m : Memory) (x : Nat) (h : m.get a = resetByte a) :
    (Memory.cons a b m).get x = if x = a then b else m.get x := by
  unfold Memory.cons
  split
  · rename_i hb
    by_cases hx : x = a
    · simp [hx, h, hb]
    · simp [hx]
  · simp [Memory.get]

/-- Below its first listed address a canonical list reads as reset. -/
theorem Memory.get_of_lt_wfFrom {m : Memory} {lo x : Nat} (h : Memory.wfFrom lo m = true)
    (hx : x < lo) : m.get x = resetByte x := by
  induction m generalizing lo with
  | nil => rfl
  | cons p m ih =>
    obtain ⟨k, b⟩ := p
    simp only [Memory.wfFrom, Bool.and_eq_true, decide_eq_true_eq] at h
    have : x ≠ k := by omega
    simp [Memory.get, this, ih h.2 (by omega)]

theorem Memory.wfFrom_mono {m : Memory} {lo lo' : Nat} (h : Memory.wfFrom lo' m = true)
    (hl : lo ≤ lo') : Memory.wfFrom lo m = true := by
  cases m with
  | nil => rfl
  | cons p m =>
    obtain ⟨k, b⟩ := p
    simp only [Memory.wfFrom, Bool.and_eq_true, decide_eq_true_eq] at h ⊢
    exact ⟨⟨⟨by omega, h.1.1.2⟩, h.1.2⟩, h.2⟩

/-- A read after a write, on a list in canonical form: the byte written at the address written,
every other address as before. -/
theorem Memory.get_set_of_wfFrom {m : Memory} {lo : Nat} (h : Memory.wfFrom lo m = true)
    (a : Nat) (b : Byte) (x : Nat) : (m.set a b).get x = if x = a then b else m.get x := by
  induction m generalizing lo with
  | nil => exact Memory.get_cons a b [] x rfl
  | cons p m ih =>
    obtain ⟨k, c⟩ := p
    simp only [Memory.wfFrom, Bool.and_eq_true, decide_eq_true_eq] at h
    simp only [Memory.set]
    split
    · rename_i hak
      refine Memory.get_cons a b _ x ?_
      have hne : a ≠ k := by omega
      simp [Memory.get, hne, Memory.get_of_lt_wfFrom h.2 (show a < k + 1 by omega)]
    · split
      · rename_i hak
        rw [Memory.get_cons a b m x (Memory.get_of_lt_wfFrom h.2 (by omega))]
        by_cases hx : x = a
        · simp [hx]
        · simp [hx, Memory.get, ← hak]
      · rename_i h1 h2
        simp only [Memory.get, ih h.2]
        by_cases hx : x = k
        · have : k ≠ a := fun e => h2 e.symm
          simp [hx, this]
        · simp [hx]

/-! ### The canonical form -/

theorem Memory.wfFrom_cons {m : Memory} {lo a : Nat} (b : Byte) (hlo : lo ≤ a)
    (ha : a < Config.memSize) (h : Memory.wfFrom (a + 1) m = true) :
    Memory.wfFrom lo (Memory.cons a b m) = true := by
  unfold Memory.cons
  split
  · exact Memory.wfFrom_mono h (by omega)
  · rename_i hb
    simp [Memory.wfFrom, hlo, ha, hb, h]

theorem Memory.wfFrom_set {m : Memory} {lo a : Nat} (b : Byte) (hlo : lo ≤ a)
    (ha : a < Config.memSize) (h : Memory.wfFrom lo m = true) :
    Memory.wfFrom lo (m.set a b) = true := by
  induction m generalizing lo with
  | nil => exact Memory.wfFrom_cons b hlo ha rfl
  | cons p m ih =>
    obtain ⟨k, c⟩ := p
    have h' := h
    simp only [Memory.wfFrom, Bool.and_eq_true, decide_eq_true_eq] at h
    simp only [Memory.set]
    split
    · refine Memory.wfFrom_cons b hlo ha ?_
      simp only [Memory.wfFrom, Bool.and_eq_true, decide_eq_true_eq]
      exact ⟨⟨⟨by omega, h.1.1.2⟩, h.1.2⟩, h.2⟩
    · split
      · rename_i hak
        exact Memory.wfFrom_cons b hlo ha (hak ▸ h.2)
      · simp only [Memory.wfFrom, Bool.and_eq_true, decide_eq_true_eq]
        exact ⟨⟨⟨h.1.1.1, h.1.1.2⟩, h.1.2⟩, ih (by omega) h.2⟩

/-- A write inside the address space keeps the canonical form. -/
theorem Memory.wf_set {m : Memory} {a : Nat} (b : Byte) (ha : a < Config.memSize)
    (h : m.wf = true) : (m.set a b).wf = true :=
  Memory.wfFrom_set b (Nat.zero_le a) ha h

/-- A read after a write, on memory in canonical form. -/
theorem Memory.get_set {m : Memory} (h : m.wf = true) (a : Nat) (b : Byte) (x : Nat) :
    (m.set a b).get x = if x = a then b else m.get x :=
  Memory.get_set_of_wfFrom h a b x

/-- Consecutive writes inside the address space keep the canonical form. -/
theorem Memory.wf_setAll {m : Memory} {a : Nat} {bs : List Byte}
    (ha : a + bs.length ≤ Config.memSize) (h : m.wf = true) : (m.setAll a bs).wf = true := by
  induction bs generalizing m a with
  | nil => exact h
  | cons b bs ih =>
    simp only [List.length_cons] at ha
    exact ih (by omega) (Memory.wf_set b (by omega) h)

/-- A read after consecutive writes. -/
theorem Memory.get_setAll {m : Memory} {a : Nat} {bs : List Byte}
    (ha : a + bs.length ≤ Config.memSize) (h : m.wf = true) (x : Nat) :
    (m.setAll a bs).get x =
      if a ≤ x ∧ x < a + bs.length then bs.getD (x - a) 0 else m.get x := by
  induction bs generalizing m a with
  | nil =>
    have : ¬ (a ≤ x ∧ x < a + 0) := by omega
    simp only [Memory.setAll, List.length_nil, if_neg this]
  | cons b bs ih =>
    simp only [List.length_cons] at ha ⊢
    have hw := Memory.wf_set (a := a) b (by omega) h
    rw [Memory.setAll, ih (by omega) hw, Memory.get_set h]
    by_cases h1 : x = a
    · subst h1
      have h2 : ¬ (x + 1 ≤ x ∧ x < x + 1 + bs.length) := by omega
      have h3 : x ≤ x ∧ x < x + (bs.length + 1) := by omega
      rw [if_neg h2, if_pos h3, if_pos rfl, Nat.sub_self]
      rfl
    · by_cases h2 : a + 1 ≤ x ∧ x < a + 1 + bs.length
      · have h3 : a ≤ x ∧ x < a + (bs.length + 1) := by omega
        have h4 : x - a = (x - (a + 1)) + 1 := by omega
        rw [if_pos h2, if_pos h3, h4, List.getD_cons_succ]
      · have h3 : ¬ (a ≤ x ∧ x < a + (bs.length + 1)) := by omega
        rw [if_neg h2, if_neg h3, if_neg h1]

end Sys2Proof.Machine
end

