-- ==== Sys2Proof/Laws/Ops.lean ====
section
/-! SUPPORT. What each shared operation can do, said once: the ends of an instruction, the checked
accesses and writes, the stack, and the loops with no rollback. -/

namespace Sys2Proof.Machine

variable {s t : State}

/-! ### Ends of an instruction -/

/-- A PC write of a value of 16 bits succeeds (R35). -/
theorem State.writePc_eq {n : Nat} (h : n ≤ 0xFFFF) :
    s.writePc n = .ok { s with pc := BitVec.ofNat 16 n } := by
  simp [State.writePc, wordMax, h]

/-- Where an instruction can stand, the default advance adds 2 to PC and nothing else (R36). -/
theorem State.advance_eq (h : s.fetchable) : s.advance = .next { s with pc := s.pc + 2 } := by
  have hn : s.pc.toNat + 2 ≤ 0xFFFF := by have : s.pc.toNat ≤ 0x0FFE := h; omega
  have hp : BitVec.ofNat 16 (s.pc.toNat + 2) = s.pc + 2 := by
    apply BitVec.eq_of_toNat_eq; simp
  simp only [State.advance, State.nextPc, State.writePc_eq hn, conclude, hp]

/-- Where an instruction can stand, a skip adds 4 or 2 to PC and nothing else (R153). -/
theorem State.skipIf_eq (h : s.fetchable) (b : Bool) :
    s.skipIf b = .next { s with pc := if b then s.pc + 4 else s.pc + 2 } := by
  have h' : s.pc.toNat ≤ 0x0FFE := h
  have hp (n : Nat) : BitVec.ofNat 16 (s.pc.toNat + n) = s.pc + BitVec.ofNat 16 n := by
    apply BitVec.eq_of_toNat_eq; simp
  cases b
  · simp only [State.skipIf, State.nextPc, Bool.false_eq_true, if_false]
    rw [State.writePc_eq (by omega), hp]
    rfl
  · simp only [State.skipIf, State.skipPc, if_true]
    rw [State.writePc_eq (by omega), hp]
    rfl

/-- Write one register and advance: that register, PC, and nothing else. -/
theorem State.advance_setReg (h : s.fetchable) (x : Nibble) (b : Byte) :
    ∃ t, (s.setReg x b).advance = .next t ∧ t = { s with v := t.v, pc := s.pc + 2 } ∧
      t.reg x = b ∧ SameRegsBut [x] s t := by
  have h' : (s.setReg x b).fetchable := h
  refine ⟨_, State.advance_eq h', rfl, by simp, fun r hr => ?_⟩
  simp only [List.mem_singleton] at hr
  simp [hr]

/-- Write a result, then its flag, and advance (R192): VF ends with the flag also where it is the
destination. -/
theorem State.advance_setRegFlag (h : s.fetchable) (x : Nibble) (r : Byte) (f : Bool) :
    ∃ t, (s.setRegFlag x r f).advance = .next t ∧ t = { s with v := t.v, pc := s.pc + 2 } ∧
      SameRegsBut [x, 0xF] s t ∧ (x ≠ 0xF → t.reg x = r) ∧ t.reg 0xF = if f then 1 else 0 := by
  have h' : (s.setRegFlag x r f).fetchable := h
  refine ⟨_, State.advance_eq h', rfl, fun y hy => ?_, fun hx => ?_, ?_⟩
  · simp only [List.mem_cons, List.not_mem_nil, or_false, not_or] at hy
    have h15 : ¬ y = flagReg := hy.2
    simp [hy.1, h15]
  · have h15 : ¬ x = flagReg := hx
    simp [h15]
  · simp [flagReg, flagByte]

/-- Whatever its PC, an advance ends in the advanced state or in a fault taken. -/
theorem State.advance_cases (s : State) :
    (s.nextPc ≤ 0xFFFF ∧ s.advance = .next { s with pc := BitVec.ofNat 16 s.nextPc }) ∨
    (0xFFFF < s.nextPc ∧ s.advance = .next (s.raise ⟨.valueOutOfRange, s.nextPc⟩)) := by
  by_cases h : s.nextPc ≤ 0xFFFF
  · exact .inl ⟨h, by rw [State.advance, State.writePc_eq h]; rfl⟩
  · refine .inr ⟨by omega, ?_⟩
    simp [State.advance, State.writePc, wordMax, h, conclude]

/-! ### Checked accesses -/

theorem State.memRead_eq {a : Nat} (h : a < 4096) : s.memRead a = .ok (s.mem.get a) := by
  simp [State.memRead, Config.memSize, h]

theorem State.memRead_error {a : Nat} (h : 4096 ≤ a) :
    s.memRead a = .error ⟨.addressOutOfRange, a⟩ := by
  simp [State.memRead, Config.memSize, show ¬ a < 4096 by omega]

theorem State.memWrite_eq {a : Nat} (b : Byte) (h : a < 4096) :
    s.memWrite a b = .ok { s with mem := s.mem.set a b } := by
  simp [State.memWrite, Config.memSize, h]

theorem State.memWrite_error {a : Nat} (b : Byte) (h : 4096 ≤ a) :
    s.memWrite a b = .error ⟨.addressOutOfRange, a⟩ := by
  simp [State.memWrite, Config.memSize, show ¬ a < 4096 by omega]

/-- A fetch reads two bytes, or reports the first address at or above 4096 (R80). -/
theorem State.fetch_eq (s : State) :
    s.fetch = if s.fetchable then
        .ok (bigEndian (s.mem.get s.pc.toNat) (s.mem.get (s.pc.toNat + 1)))
      else .error ⟨.addressOutOfRange, max s.pc.toNat 0x1000⟩ := by
  unfold State.fetch State.fetchable
  by_cases h : s.pc.toNat ≤ 0x0FFE
  · rw [if_pos h, State.memRead_eq (by omega), State.memRead_eq (by omega)]
  · rw [if_neg h]
    by_cases h2 : s.pc.toNat < 4096
    · rw [State.memRead_eq h2, State.memRead_error (by omega), Nat.max_eq_right (by omega)]
      simp only; congr 2; omega
    · rw [State.memRead_error (by omega), Nat.max_eq_left (by omega)]

/-! ### Loops with no rollback (R77) -/

/-- The stores of a transfer: the bytes that fit below 4096 are written in ascending order, and the
first address at or above 4096, if one is reached, is the fault's. -/
theorem State.storeBytes_eq (s : State) (a : Nat) (bs : List Byte) :
    s.storeBytes a bs =
      ({ s with mem := s.mem.setAll a (bs.take (4096 - a)) },
        if a + bs.length ≤ 4096 ∨ bs = [] then none
        else some ⟨.addressOutOfRange, max a 4096⟩) := by
  induction bs generalizing s a with
  | nil => simp [State.storeBytes, Memory.setAll]
  | cons b bs ih =>
    unfold State.storeBytes
    by_cases h : a < 4096
    · obtain ⟨k, hk⟩ : ∃ k, 4096 - a = k + 1 := ⟨4096 - a - 1, by omega⟩
      have hk' : 4096 - (a + 1) = k := by omega
      simp only [State.memWrite_eq b h, ih, hk, hk', List.take_succ_cons, Memory.setAll,
        List.length_cons]
      congr 1
      by_cases h2 : bs = []
      · simp [h2, show a + 1 ≤ 4096 by omega]
      · have : max (a + 1) 4096 = max a 4096 := by omega
        simp [h2, this, Nat.add_assoc, Nat.add_comm 1]
    · have h1 : 4096 - a = 0 := by omega
      have h2 : ¬ (a + (bs.length + 1) ≤ 4096) := by omega
      have h3 : max a 4096 = a := by omega
      simp [State.memWrite_error b (show 4096 ≤ a by omega), h1, h2, h3, Memory.setAll]

/-- The loads of a transfer change registers only. -/
theorem State.loadRegs_frame (s : State) (a : Nat) (xs : List Nibble) :
    (s.loadRegs a xs).1 = { s with v := (s.loadRegs a xs).1.v } := by
  induction xs generalizing s a with
  | nil => rfl
  | cons x xs ih =>
    unfold State.loadRegs
    by_cases h : a < 4096
    · simp only [State.memRead_eq h]
      rw [ih]
      rfl
    · simp only [State.memRead_error (show 4096 ≤ a by omega)]

/-- The fault of a load transfer: the first address at or above 4096, if one is reached. -/
theorem State.loadRegs_fault (s : State) (a : Nat) (xs : List Nibble) :
    (s.loadRegs a xs).2 =
      if a + xs.length ≤ 4096 ∨ xs = [] then none else some ⟨.addressOutOfRange, max a 4096⟩ := by
  induction xs generalizing s a with
  | nil => simp [State.loadRegs]
  | cons x xs ih =>
    unfold State.loadRegs
    by_cases h : a < 4096
    · simp only [State.memRead_eq h, ih, List.length_cons]
      by_cases h2 : xs = []
      · simp [h2, show a + 1 ≤ 4096 by omega]
      · have : max (a + 1) 4096 = max a 4096 := by omega
        simp [h2, this, Nat.add_assoc, Nat.add_comm 1]
    · have h2 : ¬ (a + (xs.length + 1) ≤ 4096) := by omega
      have h3 : max a 4096 = a := by omega
      simp [State.memRead_error (show 4096 ≤ a by omega), h2, h3]

/-- `V[0] .. V[x]` by index. -/
theorem regsUpTo_length (x : Nibble) : (regsUpTo x).length = x.toNat + 1 := by
  simp [regsUpTo]

theorem regsUpTo_ne_nil (x : Nibble) : regsUpTo x ≠ [] := by
  intro h; have := regsUpTo_length x; simp [h] at this

theorem regsUpTo_getElem (x : Nibble) (k : Nat) (h : k < (regsUpTo x).length) :
    (regsUpTo x)[k] = BitVec.ofNat 4 k := by
  simp [regsUpTo]

/-- Registers after the loads of a list without repeats: the listed ones that lie below 4096 hold
their bytes, every other one is as before. -/
theorem State.loadRegs_reg (s : State) (a : Nat) (xs : List Nibble) (hnd : xs.Nodup) (r : Nibble) :
    (s.loadRegs a xs).1.reg r =
      if xs.idxOf r < xs.length ∧ a + xs.idxOf r < 4096 then s.mem.get (a + xs.idxOf r)
      else s.reg r := by
  induction xs generalizing s a with
  | nil => simp [State.loadRegs]
  | cons x xs ih =>
    unfold State.loadRegs
    have hnd' := List.nodup_cons.mp hnd
    by_cases h : a < 4096
    · simp only [State.memRead_eq h, ih _ _ hnd'.2, State.setReg_mem, State.reg_setReg]
      by_cases hr : r = x
      · subst hr
        have : ¬ (xs.idxOf r < xs.length) := by simpa [List.idxOf_lt_length_iff] using hnd'.1
        simp [this, h]
      · have hx : ¬ x = r := fun e => hr e.symm
        simp only [List.idxOf_cons_ne _ hx, List.length_cons, Nat.succ_eq_add_one, if_neg hr,
          Nat.add_assoc, Nat.add_comm 1]
        simp
    · simp only [State.memRead_error (show 4096 ≤ a by omega)]
      have : ¬ (a + (x :: xs).idxOf r < 4096) := by omega
      simp [this]

theorem regsUpTo_nodup (x : Nibble) : (regsUpTo x).Nodup := by
  rw [List.nodup_iff_injective_getElem]
  intro i j h
  simp only [regsUpTo_getElem] at h
  have hx := x.isLt
  have hi := i.isLt
  have hj := j.isLt
  have hl := regsUpTo_length x
  have := congrArg BitVec.toNat h
  simp only [BitVec.toNat_ofNat] at this
  apply Fin.ext
  omega

theorem regsUpTo_idxOf (x r : Nibble) (h : r.toNat ≤ x.toNat) :
    (regsUpTo x).idxOf r = r.toNat := by
  have hl : r.toNat < (regsUpTo x).length := by rw [regsUpTo_length]; omega
  have := (regsUpTo_nodup x).idxOf_getElem r.toNat hl
  rwa [regsUpTo_getElem, BitVec.ofNat_toNat, BitVec.setWidth_eq] at this

theorem regsUpTo_not_mem (x r : Nibble) (h : x.toNat < r.toNat) : r ∉ regsUpTo x := by
  simp only [regsUpTo, List.mem_map, List.mem_range, not_exists, not_and]
  intro k hk he
  have := congrArg BitVec.toNat he
  have hr := r.isLt
  simp only [BitVec.toNat_ofNat] at this
  omega

/-- The register loads of FX65 (R225): `V[r]` for `r ≤ x` with `a + r` below 4096 holds its byte,
every other register is as before. -/
theorem State.loadRegs_upTo (s : State) (a : Nat) (x r : Nibble) :
    (s.loadRegs a (regsUpTo x)).1.reg r =
      if r.toNat ≤ x.toNat ∧ a + r.toNat < 4096 then s.mem.get (a + r.toNat) else s.reg r := by
  rw [State.loadRegs_reg s a _ (regsUpTo_nodup x)]
  by_cases h : r.toNat ≤ x.toNat
  · rw [regsUpTo_idxOf x r h, regsUpTo_length]
    simp [h, show r.toNat < x.toNat + 1 by omega]
  · have h1 := regsUpTo_not_mem x r (by omega)
    rw [← List.idxOf_lt_length_iff] at h1
    simp [h, h1]

/-- The reads of a sprite: all its bytes, or the first address at or above 4096 (R252). -/
theorem State.readBytes_eq (s : State) (a n : Nat) :
    s.readBytes a n =
      if a + n ≤ 4096 ∨ n = 0 then .ok ((List.range n).map fun k => s.mem.get (a + k))
      else .error ⟨.addressOutOfRange, max a 4096⟩ := by
  induction n generalizing a with
  | zero => simp [State.readBytes]
  | succ n ih =>
    unfold State.readBytes
    by_cases h : a < 4096
    · simp only [State.memRead_eq h, ih]
      by_cases h2 : a + 1 + n ≤ 4096 ∨ n = 0
      · have h3 : a + (n + 1) ≤ 4096 := by omega
        simp only [h2, h3, if_true, true_or, List.range_succ_eq_map, List.map_cons, List.map_map]
        congr 2
        apply List.map_congr_left
        intro k _
        simp [Nat.add_assoc, Nat.add_comm 1]
      · have h3 : ¬ (a + (n + 1) ≤ 4096 ∨ n + 1 = 0) := by omega
        have : max (a + 1) 4096 = max a 4096 := by omega
        simp only [if_neg h2, if_neg h3, this]
    · have h3 : ¬ (a + (n + 1) ≤ 4096 ∨ n + 1 = 0) := by omega
      have : max a 4096 = a := by omega
      simp only [State.memRead_error (show 4096 ≤ a by omega), h3, this, if_false]

/-! ### The stack (R40 to R42) -/

theorem State.stackEntry_of_lt (s : State) {n : Nat} (h : n < 16) : s.stackEntry n = s.stack[n] := by
  simp [State.stackEntry, Vector.getD, h]

/-- A push below the depth limit of a value of 16 bits (R41). -/
theorem State.push_eq {n : Nat} (h : s.sp.val < 16) (hn : n ≤ 0xFFFF) :
    ∃ u, s.push n = .ok u ∧
      u = { s with stack := s.stack.set s.sp.val (BitVec.ofNat 16 n) h, sp := u.sp } ∧
      u.sp.val = s.sp.val + 1 ∧
      ∀ k, u.stackEntry k = if k = s.sp.val then BitVec.ofNat 16 n else s.stackEntry k := by
  have h' : s.sp.val < Config.stackDepth := h
  have e : s.push n = .ok { s with
      stack := s.stack.set s.sp.val (BitVec.ofNat 16 n) h
      sp := ⟨s.sp.val + 1, Nat.succ_lt_succ h⟩ } := by
    have hn' : n ≤ wordMax := hn
    simp only [State.push, dif_pos h', if_pos hn']
  refine ⟨_, e, rfl, rfl, ?_⟩
  intro k
  by_cases hk : k < 16
  · rw [State.stackEntry_of_lt _ hk, State.stackEntry_of_lt _ hk]
    simp only [Vector.getElem_set]
    by_cases e : k = s.sp.val
    · simp [e]
    · have e' : ¬ s.sp.val = k := fun h => e h.symm
      simp [e, e']
  · have e : k ≠ s.sp.val := by omega
    simp [State.stackEntry, Vector.getD, hk, e]

/-- The 17th push faults (R41). -/
theorem State.push_overflow (h : s.sp.val = 16) (n : Nat) :
    s.push n = .error ⟨.stackOverflow, s.pc.toNat⟩ := by
  have h' : ¬ s.sp.val < Config.stackDepth := by simp [Config.stackDepth, h]
  simp only [State.push, dif_neg h']

end Sys2Proof.Machine
end

