-- ==== Sys2Proof/Laws/Display.lean ====
section
/-! SUPPORT. The compositor's loops in closed form: every pixel after `attachSprite` is the pixel
before XOR the sprite bit on it, and the collision is a covered lit pixel (R251 to R257). -/

namespace Sys2Proof.Machine

variable {W H : Nat}

/-- Off the grid every pixel reads false. -/
theorem Grid.pixel_off (g : Grid W H) {r c : Nat} (h : ¬ (r < H ∧ c < W)) : Grid.pixel g r c = false := by
  simp [Grid.pixel, h]

/-- Inverting one pixel inverts that one and no other. -/
theorem Grid.pixel_flip (g : Grid W H) (r c r' c' : Nat) (h : r < H ∧ c < W) :
    Grid.pixel (Grid.flip g r c) r' c' =
      if r' = r ∧ c' = c then !Grid.pixel g r c else Grid.pixel g r' c' := by
  unfold Grid.flip
  rw [dif_pos h]
  by_cases hb : r' < H ∧ c' < W
  · by_cases hr : r' = r
    · subst hr
      by_cases hc : c' = c
      · subst hc; simp [Grid.pixel, hb]
      · have : ¬ c = c' := fun e => hc e.symm
        simp [Grid.pixel, hb, hc, this]
    · have : ¬ r = r' := fun e => hr e.symm
      simp [Grid.pixel, hb, hr, this]
  · have hne : ¬ (r' = r ∧ c' = c) := by rintro ⟨rfl, rfl⟩; exact hb h
    rw [if_neg hne, Grid.pixel_off _ hb, Grid.pixel_off _ hb]

/-- Column `c` of a `W`-wide grid carries a 1 among the bits `n - 1 .. 0` of a sprite byte at `x0`. -/
def rowCovers (W x0 n : Nat) (b : Byte) (c : Nat) : Bool :=
  decide (x0 + (8 - n) ≤ c ∧ c < x0 + 8 ∧ c < W) && b.getLsbD (7 - (c - x0))

/-- The bits `n - 1 .. 0` of a sprite byte on row `r`. -/
theorem drawBits_spec (r x0 : Nat) (b : Byte) (hr : r < H) (n : Nat) (hn : n ≤ 8)
    (p : Grid W H × Bool) :
    (∀ r' c', Grid.pixel (drawBits r x0 b n p).1 r' c' =
      (Grid.pixel p.1 r' c' ^^ (decide (r' = r) && rowCovers W x0 n b c'))) ∧
    ((drawBits r x0 b n p).2 = true ↔
      p.2 = true ∨ ∃ c, rowCovers W x0 n b c = true ∧ Grid.pixel p.1 r c = true) := by
  induction n generalizing p with
  | zero =>
    have : ∀ c, rowCovers W x0 0 b c = false := by
      intro c; simp only [rowCovers, Bool.and_eq_false_iff, decide_eq_false_iff_not]; left; omega
    simp [drawBits, this]
  | succ j ih =>
    have hsplit : ∀ c, rowCovers W x0 (j + 1) b c =
        ((decide (c = x0 + (7 - j) ∧ c < W) && b.getLsbD j) || rowCovers W x0 j b c) := by
      intro c
      by_cases hc : c = x0 + (7 - j)
      · have h1 : 7 - (c - x0) = j := by omega
        have h2 : ¬ (x0 + (8 - j) ≤ c ∧ c < x0 + 8 ∧ c < W) := by omega
        have h3 : (x0 + (8 - (j + 1)) ≤ c ∧ c < x0 + 8 ∧ c < W) ↔ (c = x0 + (7 - j) ∧ c < W) := by
          omega
        simp only [rowCovers, h1, h2, h3, decide_false, Bool.false_and, Bool.or_false]
      · have h2 : (x0 + (8 - (j + 1)) ≤ c ∧ c < x0 + 8 ∧ c < W) ↔
            (x0 + (8 - j) ≤ c ∧ c < x0 + 8 ∧ c < W) := by omega
        simp only [rowCovers, decide_eq_decide.mpr h2, hc, false_and, decide_false, Bool.false_and,
          Bool.false_or]
    have hdisj : ∀ c, c = x0 + (7 - j) → rowCovers W x0 j b c = false := by
      intro c hc
      simp only [rowCovers, Bool.and_eq_false_iff, decide_eq_false_iff_not]; left; omega
    obtain ⟨ih1, ih2⟩ := ih (by omega) (drawBit r (x0 + (7 - j)) (b.getLsbD j) p)
    simp only [drawBits]
    by_cases hw : x0 + (7 - j) < W
    · cases hb : b.getLsbD j with
      | false =>
        have hd : drawBit r (x0 + (7 - j)) false p = p := by simp [drawBit]
        rw [hb, hd] at ih1 ih2
        have hs : ∀ c, rowCovers W x0 (j + 1) b c = rowCovers W x0 j b c := by
          intro c; simp [hsplit, hb]
        simp only [hd, hs]
        exact ⟨ih1, ih2⟩
      | true =>
        have hd : drawBit r (x0 + (7 - j)) true p =
            (Grid.flip p.1 r (x0 + (7 - j)), p.2 || Grid.pixel p.1 r (x0 + (7 - j))) := by
          simp [drawBit, show ¬ x0 + (7 - j) ≥ W by omega]
        rw [hb, hd] at ih1 ih2
        simp only [hd]
        constructor
        · intro r' c'
          rw [ih1, Grid.pixel_flip _ _ _ _ _ ⟨hr, hw⟩, hsplit, hb]
          by_cases h1 : r' = r
          · by_cases h2 : c' = x0 + (7 - j)
            · simp [h1, h2, hw, hdisj _ rfl]
            · simp [h1, h2]
          · simp [h1]
        · rw [ih2]
          simp only [Grid.pixel_flip _ _ _ _ _ ⟨hr, hw⟩, hsplit, hb, Bool.and_true,
            Bool.or_eq_true, decide_eq_true_eq]
          constructor
          · rintro ((h | h) | ⟨c, h1, h2⟩)
            · exact .inl h
            · exact .inr ⟨_, .inl ⟨rfl, hw⟩, h⟩
            · refine .inr ⟨c, .inr h1, ?_⟩
              have hne : ¬ c = x0 + (7 - j) := fun e => by rw [hdisj c e] at h1; simp at h1
              simpa [hne] using h2
          · rintro (h | ⟨c, (⟨rfl, _⟩ | h1), h2⟩)
            · exact .inl (.inl h)
            · exact .inl (.inr h2)
            · refine .inr ⟨c, h1, ?_⟩
              have hne : ¬ c = x0 + (7 - j) := fun e => by rw [hdisj c e] at h1; simp at h1
              simpa [hne] using h2
    · have hd : ∀ bit, drawBit r (x0 + (7 - j)) bit p = p := by
        intro bit; simp [drawBit, show x0 + (7 - j) ≥ W by omega]
      rw [hd] at ih1 ih2
      have hs : ∀ c, rowCovers W x0 (j + 1) b c = rowCovers W x0 j b c := by
        intro c
        have : ¬ (c = x0 + (7 - j) ∧ c < W) := by omega
        simp [hsplit, this]
      simp only [hd, hs]
      exact ⟨ih1, ih2⟩

/-- Row `r`, column `c` carries a 1 of the rows `bs` drawn from row `r0` at column `x0`. -/
def rowsCover (W H x0 r0 : Nat) (bs : List Byte) (r c : Nat) : Bool :=
  decide (r < H ∧ r0 ≤ r) && rowCovers W x0 8 (bs.getD (r - r0) 0) c

/-- The rows of a sprite. -/
theorem drawRows_spec (x0 r0 : Nat) (bs : List Byte) (p : Grid W H × Bool) :
    (∀ r c, Grid.pixel (drawRows x0 r0 bs p).1 r c =
      (Grid.pixel p.1 r c ^^ rowsCover W H x0 r0 bs r c)) ∧
    ((drawRows x0 r0 bs p).2 = true ↔
      p.2 = true ∨ ∃ r c, rowsCover W H x0 r0 bs r c = true ∧ Grid.pixel p.1 r c = true) := by
  induction bs generalizing r0 p with
  | nil =>
    have : ∀ r c, rowsCover W H x0 r0 [] r c = false := by
      intro r c; simp [rowsCover, rowCovers]
    simp [drawRows, this]
  | cons b bs ih =>
    obtain ⟨ih1, ih2⟩ := ih (r0 + 1) (drawRow r0 x0 b p)
    have hsplit : ∀ r c, rowsCover W H x0 r0 (b :: bs) r c =
        ((decide (r = r0 ∧ r < H) && rowCovers W x0 8 b c) ||
          rowsCover W H x0 (r0 + 1) bs r c) := by
      intro r c
      by_cases hr : r = r0
      · subst hr
        have : ¬ (r < H ∧ r + 1 ≤ r) := by omega
        simp [rowsCover]
      · by_cases hlt : r0 ≤ r
        · obtain ⟨k, rfl⟩ : ∃ k, r = r0 + 1 + k := ⟨r - (r0 + 1), by omega⟩
          have h1 : r0 + 1 + k - r0 = k + 1 := by omega
          have h2 : r0 + 1 + k - (r0 + 1) = k := by omega
          have h3 : r0 ≤ r0 + 1 + k := by omega
          have h4 : r0 + 1 ≤ r0 + 1 + k := by omega
          have h5 : ¬ (r0 + 1 + k = r0) := by omega
          simp only [rowsCover, h1, h2, h3, h4, h5, List.getD_cons_succ, and_true, false_and,
            decide_false, Bool.false_and, Bool.false_or]
        · have h4 : ¬ r0 + 1 ≤ r := by omega
          simp [rowsCover, hr, hlt, h4]
    have hdisj : ∀ c, rowsCover W H x0 (r0 + 1) bs r0 c = false := by
      intro c; simp [rowsCover]
    simp only [drawRows]
    by_cases hr : r0 < H
    · have hd : drawRow r0 x0 b p = drawBits r0 x0 b 8 p := by
        simp [drawRow, show ¬ r0 ≥ H by omega]
      obtain ⟨d1, d2⟩ := drawBits_spec (W := W) (H := H) r0 x0 b hr 8 (Nat.le_refl 8) p
      rw [hd] at ih1 ih2 ⊢
      constructor
      · intro r c
        rw [ih1, d1, hsplit]
        by_cases h1 : r = r0
        · subst h1; simp [hr, hdisj]
        · simp [h1]
      · rw [ih2, d2]
        simp only [d1, hsplit, Bool.or_eq_true, Bool.and_eq_true, decide_eq_true_eq]
        constructor
        · rintro ((h | ⟨c, h1, h2⟩) | ⟨r, c, h1, h2⟩)
          · exact .inl h
          · exact .inr ⟨r0, c, .inl ⟨⟨rfl, hr⟩, h1⟩, h2⟩
          · refine .inr ⟨r, c, .inr h1, ?_⟩
            have hne : ¬ r = r0 := fun e => by rw [e, hdisj c] at h1; simp at h1
            simpa [hne] using h2
        · rintro (h | ⟨r, c, (⟨⟨rfl, _⟩, h1⟩ | h1), h2⟩)
          · exact .inl (.inl h)
          · exact .inl (.inr ⟨c, h1, h2⟩)
          · refine .inr ⟨r, c, h1, ?_⟩
            have hne : ¬ r = r0 := fun e => by rw [e, hdisj c] at h1; simp at h1
            simpa [hne] using h2
    · have hd : drawRow r0 x0 b p = p := by simp [drawRow, show r0 ≥ H by omega]
      rw [hd] at ih1 ih2 ⊢
      have hs : ∀ r c, rowsCover W H x0 r0 (b :: bs) r c = rowsCover W H x0 (r0 + 1) bs r c := by
        intro r c
        have : ¬ (r = r0 ∧ r < H) := by omega
        simp [hsplit, this]
      simp only [hs]
      exact ⟨ih1, ih2⟩

theorem rowsCover_eq (bytes : List Byte) (x y r c : Nat) :
    rowsCover W H (x % W) (y % H) bytes r c = spriteCovers W H bytes x y r c := by
  simp only [rowsCover, rowCovers, spriteCovers, ← Bool.and_assoc, ← Bool.decide_and]
  congr 2
  simp only [eq_iff_iff]
  constructor <;> intro h <;> omega

/-- What the compositor does on a grid, said once. -/
theorem Grid.attachSprite_spec (g : Grid W H) (bytes : List Byte) (x y : Nat) :
    (∀ r c, Grid.pixel (Grid.attachSprite g bytes x y).1 r c =
      (Grid.pixel g r c ^^ spriteCovers W H bytes x y r c)) ∧
    ((Grid.attachSprite g bytes x y).2 = true ↔
      ∃ r c, spriteCovers W H bytes x y r c = true ∧ Grid.pixel g r c = true) := by
  obtain ⟨h1, h2⟩ := drawRows_spec (x % W) (y % H) bytes (g, false)
  simp only [rowsCover_eq, Bool.false_eq_true, false_or] at h1 h2
  exact ⟨h1, h2⟩

/-- What the compositor does on a framebuffer of either mode, said once. -/
theorem Framebuffer.attachSprite_spec (fb : Framebuffer) (bytes : List Byte) (x y : Nat) :
    (fb.attachSprite bytes x y).1.displayMode = fb.displayMode ∧
    (∀ r c, (fb.attachSprite bytes x y).1.pixel r c =
      (fb.pixel r c ^^
        spriteCovers fb.displayMode.width fb.displayMode.height bytes x y r c)) ∧
    ((fb.attachSprite bytes x y).2 = true ↔
      ∃ r c, spriteCovers fb.displayMode.width fb.displayMode.height bytes x y r c = true ∧
        fb.pixel r c = true) := by
  cases fb with
  | chip8 g => exact ⟨rfl, Grid.attachSprite_spec g bytes x y⟩
  | schip g => exact ⟨rfl, Grid.attachSprite_spec g bytes x y⟩

/-- A cleared framebuffer keeps its mode and has no lit pixel (R250). -/
theorem Framebuffer.clear_spec (fb : Framebuffer) :
    fb.clear.displayMode = fb.displayMode ∧ ∀ r c, fb.clear.pixel r c = false := by
  cases fb <;> refine ⟨rfl, fun r c => ?_⟩ <;>
    simp [Framebuffer.clear, Framebuffer.blank, Framebuffer.displayMode, Framebuffer.pixel, Grid.pixel]

end Sys2Proof.Machine
end

