-- ==== Sys2Proof/Laws/Step.lean ====
section
/-! SUPPORT. What the step and the events can do, said once. -/

namespace Sys2Proof.Machine

variable {s : State}

/-- A mode in which events act is RUN or WAIT_KEY. -/
theorem Mode.live_iff (m : Mode) : m.live = true ↔ m = .run ∨ ∃ x, m = .waitKey x := by
  cases m <;> simp [Mode.live]

/-- A boundary at which no event is scheduled only passes. -/
theorem State.boundary_quiet (h : s.quiet) : s.boundary = s.pass := by
  unfold State.quiet at h
  simp only [State.boundary, h]
  rfl

/-- A step in RUN or WAIT_KEY: the boundary, then an engine step if the mode is RUN (R136). -/
theorem step_of_live (h : s.mode.live = true) :
    step s = if s.boundary.mode = .run then engineStep s.boundary else .next s.boundary := by
  have hb : ∀ b : State, (match b.mode with
      | .run => engineStep b
      | .waitKey _ | .halted | .stopped => .next b) =
      if b.mode = .run then engineStep b else Host.Outcome.next b := by
    intro b
    cases hm : b.mode <;> simp
  rcases (Mode.live_iff _).1 h with h | ⟨x, h⟩ <;> unfold step <;> rw [h] <;> exact hb _

/-- A step that answers a next state starts in RUN or WAIT_KEY. -/
theorem live_of_step {t : State} (h : step s = .next t) : s.mode.live = true := by
  unfold step at h
  split at h <;> simp_all [Mode.live]

/-- An engine step where the fetch succeeds is `exec` of the decoded word; where it does not, it
takes the fault (R80, R130). -/
theorem engineStep_eq (s : State) :
    engineStep s = if s.fetchable then exec s.instrAtPc s
      else .next (s.raise ⟨.addressOutOfRange, max s.pc.toNat 0x1000⟩) := by
  unfold engineStep
  rw [State.fetch_eq]
  by_cases h : s.fetchable
  · rw [if_pos h, if_pos h]
  · rw [if_neg h, if_neg h]

/-- The completion of a key wait where the FX0A can stand (R285). -/
theorem State.completeWait_eq (h : s.fetchable) (x k : Nibble) :
    s.completeWait x k =
      { (s.setKey k true).setReg x (k.setWidth 8) with mode := .run, pc := s.pc + 2 } := by
  have hn : s.pc.toNat + 2 ≤ 0xFFFF := by have : s.pc.toNat ≤ 0x0FFE := h; omega
  have hp : BitVec.ofNat 16 (s.pc.toNat + 2) = s.pc + 2 := by
    apply BitVec.eq_of_toNat_eq; simp
  simp only [State.completeWait, State.nextPc, State.setReg_pc, State.setKey_pc,
    State.writePc_eq hn, hp]

/-- A property that every event keeps holds after every boundary. -/
theorem State.boundary_induction {P : State → Prop}
    (hp : ∀ u : State, P u → ∀ l, P { u with schedule := l })
    (he : ∀ u : State, P u → ∀ e, P (u.event e)) (h : P s) : P s.boundary := by
  have key : ∀ (es : List Event) (u : State), P u → P (es.foldl State.event u) := by
    intro es
    induction es with
    | nil => exact fun u hu => hu
    | cons e es ih => exact fun u hu => ih _ (he u hu e)
  exact key _ _ (hp s h _)

/-- An invariant of the events and of the engine step is one of the step; the instruction executed is
the one at PC. -/
theorem step_induction {P : State → Prop} {t : State}
    (hp : ∀ u : State, P u → ∀ l, P { u with schedule := l })
    (he : ∀ u : State, P u → ∀ e, P (u.event e))
    (hx : ∀ u : State, P u → u.mode = .run → u.fetchable →
      ∀ i, u.instrAtPc = i → ∀ t, exec i u = .next t → P t)
    (hf : ∀ u : State, P u → u.mode = .run → ∀ a, P (u.raise ⟨.addressOutOfRange, a⟩))
    (h : P s) (hs : step s = .next t) : P t := by
  have hb := State.boundary_induction hp he h
  rw [step_of_live (live_of_step hs)] at hs
  by_cases hm : s.boundary.mode = .run
  · rw [if_pos hm, engineStep_eq] at hs
    by_cases hc : s.boundary.fetchable
    · rw [if_pos hc] at hs
      exact hx _ hb hm hc _ rfl _ hs
    · rw [if_neg hc] at hs
      cases hs
      exact hf _ hb hm _
  · rw [if_neg hm] at hs
    cases hs
    exact hb

/-! ### Access at a component's interface -/

/-- What such an access can do: in a final mode nothing; else what its check answers, the state or the
fault taken. -/
theorem State.ifaceTake_cases (s : State) (r : Except Condition State) :
    (s.mode.live = false ∧ s.ifaceTake r = s) ∨
    (s.mode.live = true ∧ ∃ t, r = .ok t ∧ s.ifaceTake r = t) ∨
    (s.mode.live = true ∧ ∃ c, r = .error c ∧ s.ifaceTake r = s.raise c) := by
  cases h : s.mode.live <;> cases r <;> simp [State.ifaceTake, State.whileLive, h]

/-- An access at the register file's interface with an index above 15 takes the fault (R33, U11). -/
theorem State.regFile_fault (h : s.mode.live = true) {n : Nat} (hn : 15 < n) (value : Nat) :
    s.regFileRead n = (none, s.raise ⟨.registerIndexOutOfRange, n⟩) ∧
    s.regFileWrite n value = s.raise ⟨.registerIndexOutOfRange, n⟩ := by
  have hn' : ¬ n < Config.numKeys := by simp only [Config.numKeys]; omega
  simp [State.regFileRead, State.regFileWrite, State.ifaceLook, State.ifaceTake, State.whileLive,
    State.readRegAt, State.writeRegAt, hn', h]

end Sys2Proof.Machine
end

