-- ==== Sys2Proof/Laws/Exec.lean ====
section
/-! SUPPORT. What executing an instruction and taking an event can do, said once: the data an
instruction writes (`Writes`), how it ends (`Ends`), the inversion of `exec` that joins the two, and
the forms of a transfer and of an event. -/

namespace Sys2Proof.Machine

variable {i : Instr} {s t u : State}

/-! ### The two halves of an instruction -/

/-- `u` is `s` with the writes instruction `i` makes before PC and the fault record: each field of the
state, and which instructions may write it. -/
structure Writes (i : Instr) (s u : State) : Prop where
  pc : u.pc = s.pc := by rfl
  keys : u.keys = s.keys := by rfl
  schedule : u.schedule = s.schedule := by rfl
  faultKind : u.faultKind = s.faultKind := by rfl
  faultInfo : u.faultInfo = s.faultInfo := by rfl
  displayMode : u.fb.displayMode = s.fb.displayMode := by rfl
  index : (∀ n, i ≠ .ldI n) → (∀ x, i ≠ .addI x) → (∀ x, i ≠ .ldF x) → u.i = s.i := by
    first | exact fun _ _ _ => rfl | simp
  mem : (∀ x, i ≠ .ldB x) → (∀ x, i ≠ .ldMemVx x) → u.mem = s.mem := by
    first | exact fun _ _ => rfl | simp
  stored : (∃ x, i = .ldB x) ∨ (∃ x, i = .ldMemVx x) →
      ∃ bs : List Byte, u.mem = s.mem.setAll s.base (bs.take (4096 - s.base)) := by
    first | exact fun _ => ⟨_, rfl⟩ | simp
  fb : (∀ v, i ≠ .cls v) → (∀ x y n, i ≠ .drw x y n) → u.fb = s.fb := by
    first | exact fun _ _ => rfl | simp
  dt : (∀ x, i ≠ .ldDtVx x) → u.dt = s.dt := by first | exact fun _ => rfl | simp
  st : (∀ x, i ≠ .ldStVx x) → u.st = s.st := by first | exact fun _ => rfl | simp
  sp : (∀ n, i ≠ .call n) → (∀ v, i ≠ .ret v) → u.sp = s.sp := by
    first | exact fun _ _ => rfl | simp
  stack : (∀ n, i ≠ .call n) → u.stack = s.stack := by first | exact fun _ => rfl | simp
  draws : (∀ x nn, i ≠ .rnd x nn) → u.draws = s.draws := by first | exact fun _ _ => rfl | simp
  mode : (∀ x, i ≠ .ldVxK x) → u.mode = s.mode := by first | exact fun _ => rfl | simp
  wait : ∀ x, i = .ldVxK x → u.mode = .waitKey x := by
    first | (intro x h; cases h; rfl) | simp

/-- How instruction `i`, started in `s`, ends from `u`, the state with its data written. -/
inductive Ends (i : Instr) (s u t : State) : Prop where
  /-- With PC at `w`. -/
  | next (w : Word) (eq : t = u.jump w)
      (advance : s.fetchable → i.advances = true → w = s.pc + 2)
      (bound : s.fetchable → (∀ v, i ≠ .ret v) → w.toNat ≤ 0x10FE)
      (wait : (∃ x, i = .ldVxK x) → w = s.pc)
      (ret : (∃ v, i = .ret v) → w = s.stackEntry (s.sp.val - 1))
      (call : (∃ n, i = .call n) → s.fetchable →
        ∀ k, u.stackEntry k = if k = s.sp.val then s.pc + 2 else s.stackEntry k)
  /-- In a fault; where the instruction can stand, only the transfers wrote anything before it. -/
  | fault (c : Condition) (eq : t = u.raise c) (kind : c.kind ≠ .none) (stack : u.stack = s.stack)
      (clean : s.fetchable → i.transfers = false → u = s)

/-- Two past where an instruction can stand. -/
theorem State.pc_add_two_le (h : s.fetchable) : (s.pc + 2).toNat ≤ 0x10FE := by
  have h' : s.pc.toNat ≤ 0x0FFE := h
  rw [BitVec.toNat_add, show (2 : Word).toNat = 2 from rfl]
  omega

/-- A PC write ends at the value or in a fault. -/
theorem State.writePc_cases {n : Nat} (h : conclude u (u.writePc n) = .next t) :
    (∃ w : Word, t = u.jump w ∧ w.toNat = n) ∨
    (0xFFFF < n ∧ t = u.raise ⟨.valueOutOfRange, n⟩) := by
  by_cases hn : n ≤ 0xFFFF
  · rw [State.writePc_eq hn] at h
    injection h with h
    exact .inl ⟨_, h.symm, by rw [BitVec.toNat_ofNat]; omega⟩
  · have e : u.writePc n = .error ⟨.valueOutOfRange, n⟩ := by simp [State.writePc, wordMax, hn]
    rw [e] at h
    injection h with h
    exact .inr ⟨by omega, h.symm⟩

/-- The default advance, by an instruction that is neither FX0A, RET nor CALL. -/
theorem Ends.of_advance (h : u.advance = .next t) (hp : u.pc = s.pc := by rfl)
    (hs : u.stack = s.stack := by rfl) (hk : ∀ x, i ≠ .ldVxK x := by simp)
    (hr : ∀ v, i ≠ .ret v := by simp) (hc : ∀ n, i ≠ .call n := by simp) : Ends i s u t := by
  rcases State.writePc_cases h with ⟨w, rfl, hw⟩ | ⟨hn, rfl⟩
  · have e : s.fetchable → w = s.pc + 2 := by
      intro hf
      have hf' : s.pc.toNat ≤ 0x0FFE := hf
      apply BitVec.eq_of_toNat_eq
      rw [hw, State.nextPc, hp, BitVec.toNat_add, show (2 : Word).toNat = 2 from rfl]
      omega
    exact .next w rfl (fun hf _ => e hf) (fun hf _ => by rw [e hf]; exact State.pc_add_two_le hf)
      (fun ⟨x, hx⟩ => absurd hx (hk x)) (fun ⟨v, hv⟩ => absurd hv (hr v))
      (fun ⟨n, hn⟩ => absurd hn (hc n))
  · refine .fault _ rfl (by simp) hs fun hf => ?_
    have hf' : s.pc.toNat ≤ 0x0FFE := hf
    rw [State.nextPc, hp] at hn
    omega

/-- A fault before anything is written. -/
theorem Ends.of_raise (c : Condition) (hc : c.kind ≠ .none) : Ends i s s (s.raise c) :=
  .fault c rfl hc rfl fun _ _ => rfl

/-- The end of a skip. -/
theorem Ends.of_skip {b : Bool} (h : s.skipIf b = .next t) (ha : i.advances = false := by rfl)
    (hk : ∀ x, i ≠ .ldVxK x := by simp) (hr : ∀ v, i ≠ .ret v := by simp)
    (hc : ∀ n, i ≠ .call n := by simp) : Ends i s s t := by
  have bound : s.fetchable → (if b then s.skipPc else s.nextPc) ≤ 0x1002 := by
    intro hf
    have hf' : s.pc.toNat ≤ 0x0FFE := hf
    cases b <;> simp [State.skipPc, State.nextPc] <;> omega
  rcases State.writePc_cases h with ⟨w, rfl, hw⟩ | ⟨_, rfl⟩
  · exact .next w rfl (fun _ h => by simp [ha] at h) (fun hf _ => by have := bound hf; omega)
      (fun ⟨x, hx⟩ => absurd hx (hk x)) (fun ⟨v, hv⟩ => absurd hv (hr v))
      (fun ⟨n, hn⟩ => absurd hn (hc n))
  · exact .of_raise _ (by simp)

/-- What a push that succeeds or faults tells. -/
theorem State.push_cases (s : State) (n : Nat) :
    (∃ h : s.sp.val < 16, n ≤ 0xFFFF ∧ ∃ u, s.push n = .ok u ∧
      u = { s with stack := s.stack.set s.sp.val (BitVec.ofNat 16 n) h, sp := u.sp } ∧
      ∀ k, u.stackEntry k = if k = s.sp.val then BitVec.ofNat 16 n else s.stackEntry k) ∨
    ∃ c, s.push n = .error c ∧ c.kind ≠ .none := by
  by_cases h : s.sp.val < 16
  · by_cases hn : n ≤ 0xFFFF
    · obtain ⟨u, h1, h2, _, h4⟩ := State.push_eq h hn
      exact .inl ⟨h, hn, u, h1, h2, h4⟩
    · have h' : s.sp.val < Config.stackDepth := h
      have hn' : ¬ n ≤ wordMax := hn
      exact .inr ⟨⟨.valueOutOfRange, n⟩, by simp only [State.push, dif_pos h', if_neg hn'], by simp⟩
  · have h' : ¬ s.sp.val < Config.stackDepth := h
    exact .inr ⟨⟨.stackOverflow, s.pc.toNat⟩, by simp only [State.push, dif_neg h'], by simp⟩

/-! ### The inversion of `exec` -/

/-- Everything `exec` can do: it writes what the instruction may write, then ends. -/
theorem exec_cases (h : exec i s = .next t) : ∃ u, Writes i s u ∧ Ends i s u t := by
  cases i <;> simp only [exec] at h
  case ret v =>
    unfold execRet State.pop at h
    by_cases h0 : s.sp.val = 0
    · simp only [if_pos h0] at h
      cases h
      exact ⟨s, {}, .of_raise _ (by simp)⟩
    · simp only [if_neg h0] at h
      cases h
      refine ⟨{ s with sp := _ }, {}, .next _ rfl ?_ ?_ ?_ ?_ ?_⟩ <;> simp [Instr.advances]
  case call n =>
    unfold execCall at h
    rcases s.push_cases s.nextPc with ⟨_, _, u, h1, h2, h3⟩ | ⟨c, h1, h2⟩
    · rw [h1] at h
      cases h
      refine ⟨u, by rw [h2]; exact {}, .next _ rfl (by simp [Instr.advances]) ?_ (by simp) (by simp) ?_⟩
      · intro _ _
        have := n.isLt
        simp only [addrOperand, BitVec.toNat_setWidth]
        omega
      · intro _ _ k
        rw [h3]
        congr 1
    · rw [h1] at h
      cases h
      exact ⟨s, {}, .of_raise _ h2⟩
  case jp n =>
    cases h
    refine ⟨s, {}, .next _ rfl ?_ ?_ ?_ ?_ ?_⟩ <;> simp [Instr.advances]
    have := n.isLt
    simp only [addrOperand, BitVec.toNat_setWidth]
    omega
  case jpV0 n =>
    have hn := n.isLt
    have hr := (s.reg 0x0).isLt
    rcases State.writePc_cases h with ⟨w, rfl, hw⟩ | ⟨h1, _⟩
    · refine ⟨s, {}, .next w rfl ?_ ?_ ?_ ?_ ?_⟩ <;> simp [Instr.advances]
      rw [hw, State.offsetTarget]
      omega
    · rw [State.offsetTarget] at h1
      omega
  case ldVxK x =>
    cases h
    refine ⟨{ s with mode := .waitKey x }, {}, .next s.pc rfl ?_ ?_ ?_ ?_ ?_⟩ <;>
      simp [Instr.advances]
    omega
  case seImm | sneImm | seReg | sneReg => exact ⟨s, {}, .of_skip h⟩
  case skp x | sknp x =>
    simp only [execSkp, execSknp, State.isPressed] at h
    by_cases hk : s.regNat x < Config.numKeys
    · simp only [if_pos hk] at h
      exact ⟨s, {}, .of_skip h⟩
    · simp only [if_neg hk] at h
      cases h
      exact ⟨s, {}, .of_raise _ (by simp)⟩
  case addI x =>
    unfold execAddI State.writeI at h
    by_cases hk : s.indexSum x ≤ wordMax
    · simp only [if_pos hk] at h
      exact ⟨_, {}, .of_advance h⟩
    · simp only [if_neg hk] at h
      cases h
      exact ⟨s, {}, .of_raise _ (by simp)⟩
  case drw x y n =>
    unfold execDrw at h
    rw [State.readBytes_eq] at h
    by_cases hk : s.base + n.toNat ≤ 4096 ∨ n.toNat = 0
    · simp only [if_pos hk] at h
      exact ⟨_, { displayMode := (Framebuffer.attachSprite_spec s.fb _ _ _).1 }, .of_advance h⟩
    · simp only [if_neg hk] at h
      cases h
      exact ⟨s, {}, .of_raise _ (by simp)⟩
  case ldB x | ldMemVx x =>
    simp only [execLdB, execLdMemVx] at h
    rw [State.storeBytes_eq] at h
    split at h
    · exact ⟨_, {}, .of_advance (show State.advance _ = _ from h)⟩
    · cases h
      exact ⟨{ s with mem := _ }, {}, .fault _ rfl (by simp) rfl (by simp [Instr.transfers])⟩
  case ldVxMem x =>
    unfold execLdVxMem at h
    have hfr := State.loadRegs_frame s s.base (regsUpTo x)
    have hft := State.loadRegs_fault s s.base (regsUpTo x)
    rcases hp : s.loadRegs s.base (regsUpTo x) with ⟨u, c⟩
    rw [hp] at hfr hft h
    simp only at hfr hft
    rw [hfr] at h
    split at hft <;> subst hft
    · exact ⟨_, {}, .of_advance (show State.advance _ = _ from h)⟩
    · cases h
      exact ⟨{ s with v := _ }, {}, .fault _ rfl (by simp) rfl (by simp [Instr.transfers])⟩
  case cls v => exact ⟨_, { displayMode := (Framebuffer.clear_spec s.fb).1 }, .of_advance h⟩
  all_goals exact ⟨_, {}, .of_advance (show State.advance _ = _ from h)⟩

/-! ### The transfers -/

/-- A store transfer that fits: its bytes are stored, and PC is past the instruction. -/
theorem State.store_next (s : State) (bs : List Byte) (hf : s.fetchable)
    (h : s.i.toNat + bs.length ≤ 4096) (hm : s.memOk) :
    ∃ t, concludeLoop State.advance (s.storeBytes s.base bs) = .next t ∧
      t = { s with mem := t.mem, pc := s.pc + 2 } ∧
      ∀ a, t.mem.get a = if s.i.toNat ≤ a ∧ a < s.i.toNat + bs.length then bs.getD (a - s.i.toNat) 0
        else s.mem.get a := by
  have hb : s.base + bs.length ≤ 4096 := h
  have ht : bs.take (4096 - s.base) = bs := List.take_of_length_le (by omega)
  rw [State.storeBytes_eq, if_pos (.inl hb), ht]
  exact ⟨_, State.advance_eq (s := { s with mem := s.mem.setAll s.base bs }) hf, rfl,
    Memory.get_setAll h hm⟩

/-- A store transfer that does not fit: the bytes below 4096 are stored, and the fault is taken. -/
theorem State.store_fault (s : State) (bs : List Byte) (h : 4096 < s.i.toNat + bs.length)
    (hne : bs ≠ []) (hm : s.memOk) :
    ∃ t, concludeLoop State.advance (s.storeBytes s.base bs) = .next t ∧
      t = State.raise { s with mem := t.mem } ⟨.addressOutOfRange, max s.i.toNat 4096⟩ ∧
      ∀ a, t.mem.get a = if s.i.toNat ≤ a ∧ a < s.i.toNat + (4096 - s.i.toNat) then
        bs.getD (a - s.i.toNat) 0 else s.mem.get a := by
  have hb : ¬ (s.base + bs.length ≤ 4096 ∨ bs = []) := by
    have : s.base = s.i.toNat := rfl
    rw [this, not_or]
    exact ⟨by omega, hne⟩
  rw [State.storeBytes_eq, if_neg hb]
  refine ⟨_, rfl, rfl, fun a => ?_⟩
  show (s.mem.setAll s.i.toNat (bs.take (4096 - s.i.toNat))).get a = _
  by_cases hlt : s.i.toNat < 4096
  · rw [Memory.get_setAll (by rw [List.length_take, Config.memSize]; omega) hm, List.length_take,
      Nat.min_eq_left (by omega)]
    split
    · have : a - s.i.toNat < 4096 - s.i.toNat := by omega
      simp [List.getD_eq_getElem?_getD, this]
    · rfl
  · have h0 : 4096 - s.i.toNat = 0 := by omega
    rw [h0]
    simp [Memory.setAll]

/-- The `k`-th byte a register dump stores. -/
theorem regsUpTo_getD (s : State) {x k : Nibble} (h : k.toNat ≤ x.toNat) :
    ((regsUpTo x).map s.reg).getD k.toNat 0 = s.reg k := by
  have h2 : k.toNat < (regsUpTo x).length := by rw [regsUpTo_length]; omega
  simp [List.getD_eq_getElem?_getD, h2, regsUpTo_getElem]

/-! ### The events -/

/-- Everything an event can write. -/
theorem State.event_form (u : State) (e : Event) : ∃ dt st keys v mode pc faultKind faultInfo,
    u.event e = { u with
      dt := dt, st := st, keys := keys, v := v, mode := mode, pc := pc
      faultKind := faultKind, faultInfo := faultInfo } := by
  cases e <;> simp only [State.event, State.keyPress, State.completeWait, State.writePc]
  case keyPress k =>
    split
    · exact ⟨_, _, _, _, _, _, _, _, rfl⟩
    · split
      · exact ⟨_, _, _, _, _, _, _, _, rfl⟩
      · split
        · rename_i heq
          split at heq
          · injection heq with heq
            exact ⟨_, _, _, _, _, _, _, _, heq.symm⟩
          · cases heq
        · exact ⟨_, _, _, _, _, _, _, _, rfl⟩
    · exact ⟨_, _, _, _, _, _, _, _, rfl⟩
    · exact ⟨_, _, _, _, _, _, _, _, rfl⟩
  case readFrame => exact ⟨_, _, _, _, _, _, _, _, rfl⟩
  all_goals split <;> exact ⟨_, _, _, _, _, _, _, _, rfl⟩

/-! ### The host (R143) -/

/-- No host action but reset changes a final mode's state. -/
theorem State.hostAct_final (h : s.mode.live = false) (a : HostAction) (ha : ∀ rom d, a ≠ .reset rom d) :
    s.hostAct a = s := by
  have hk : ∀ k, s.keyPress k = s := by
    intro k; unfold State.keyPress; cases hm : s.mode <;> simp_all [Mode.live]
  cases a with
  | reset rom d => exact absurd rfl (ha rom d)
  | event e => cases e <;> simp [State.hostAct, State.event, h, hk]
  | readStatus => rfl

/-- No host action but reset touches memory, the framebuffer, I or the stack. -/
theorem State.hostAct_frame (s : State) (a : HostAction) (ha : ∀ rom d, a ≠ .reset rom d) :
    (s.hostAct a).mem = s.mem ∧ (s.hostAct a).fb = s.fb ∧ (s.hostAct a).i = s.i ∧
    (s.hostAct a).stack = s.stack ∧ (s.hostAct a).sp = s.sp := by
  cases a with
  | reset rom d => exact absurd rfl (ha rom d)
  | event e =>
    obtain ⟨_, _, _, _, _, _, _, _, he⟩ := s.event_form e
    simp only [State.hostAct, he, and_self]
  | readStatus => exact ⟨rfl, rfl, rfl, rfl, rfl⟩

end Sys2Proof.Machine
end

