-- ==== Sys2Proof/Laws/PerInstr.lean ====
section
/-! SUPPORT. The family MapRow: every instruction's word shows its row of the opcode map, match under
mask (R106; R107 for the no-op rows). -/

namespace Sys2Proof.Laws.MapRow

/-- The word the encoder gives an instruction agrees with its row's mask and match. -/
def Statement (i : Instr) : Prop := encode i &&& i.rowMask = i.rowMatch

theorem cls (u : Nibble) : Statement (.cls u) := mask_key8 _ _ _
theorem ret (u : Nibble) : Statement (.ret u) := mask_key8 _ _ _
theorem jp (nnn : Addr12) : Statement (.jp nnn) := mask_NNN _ _
theorem call (nnn : Addr12) : Statement (.call nnn) := mask_NNN _ _
theorem seImm (x : Nibble) (nn : Byte) : Statement (.seImm x nn) := mask_XNN _ _ _
theorem sneImm (x : Nibble) (nn : Byte) : Statement (.sneImm x nn) := mask_XNN _ _ _
theorem seReg (x y u : Nibble) : Statement (.seReg x y u) := mask_XYN _ _ _ _
theorem ldImm (x : Nibble) (nn : Byte) : Statement (.ldImm x nn) := mask_XNN _ _ _
theorem addImm (x : Nibble) (nn : Byte) : Statement (.addImm x nn) := mask_XNN _ _ _
theorem ldReg (x y : Nibble) : Statement (.ldReg x y) := mask_key4 _ _ _ _
theorem orReg (x y : Nibble) : Statement (.orReg x y) := mask_key4 _ _ _ _
theorem andReg (x y : Nibble) : Statement (.andReg x y) := mask_key4 _ _ _ _
theorem xorReg (x y : Nibble) : Statement (.xorReg x y) := mask_key4 _ _ _ _
theorem addReg (x y : Nibble) : Statement (.addReg x y) := mask_key4 _ _ _ _
theorem subReg (x y : Nibble) : Statement (.subReg x y) := mask_key4 _ _ _ _
theorem shr (x y : Nibble) : Statement (.shr x y) := mask_key4 _ _ _ _
theorem subnReg (x y : Nibble) : Statement (.subnReg x y) := mask_key4 _ _ _ _
theorem shl (x y : Nibble) : Statement (.shl x y) := mask_key4 _ _ _ _
theorem sneReg (x y u : Nibble) : Statement (.sneReg x y u) := mask_XYN _ _ _ _
theorem ldI (nnn : Addr12) : Statement (.ldI nnn) := mask_NNN _ _
theorem jpV0 (nnn : Addr12) : Statement (.jpV0 nnn) := mask_NNN _ _
theorem rnd (x : Nibble) (nn : Byte) : Statement (.rnd x nn) := mask_XNN _ _ _
theorem drw (x y n : Nibble) : Statement (.drw x y n) := mask_XYN _ _ _ _
theorem skp (x : Nibble) : Statement (.skp x) := mask_key8 _ _ _
theorem sknp (x : Nibble) : Statement (.sknp x) := mask_key8 _ _ _
theorem ldVxDt (x : Nibble) : Statement (.ldVxDt x) := mask_key8 _ _ _
theorem ldVxK (x : Nibble) : Statement (.ldVxK x) := mask_key8 _ _ _
theorem ldDtVx (x : Nibble) : Statement (.ldDtVx x) := mask_key8 _ _ _
theorem ldStVx (x : Nibble) : Statement (.ldStVx x) := mask_key8 _ _ _
theorem addI (x : Nibble) : Statement (.addI x) := mask_key8 _ _ _
theorem ldF (x : Nibble) : Statement (.ldF x) := mask_key8 _ _ _
theorem ldB (x : Nibble) : Statement (.ldB x) := mask_key8 _ _ _
theorem ldMemVx (x : Nibble) : Statement (.ldMemVx x) := mask_key8 _ _ _
theorem ldVxMem (x : Nibble) : Statement (.ldVxMem x) := mask_key8 _ _ _
theorem sys (nnn : Addr12) : Statement (.sys nnn) := mask_NNN _ _
theorem nop8 (x y n : Nibble) : Statement (.nop8 x y n) := mask_XYN _ _ _ _
theorem nopE (x : Nibble) (nn : Byte) : Statement (.nopE x nn) := mask_XNN _ _ _
theorem nopF (x : Nibble) (nn : Byte) : Statement (.nopF x nn) := mask_XNN _ _ _

end Sys2Proof.Laws.MapRow
end

