-- ==== Sys2Proof/Tests/Slice0.lean ====
section
/-! SUPPORT. The model's own tests: ill-formed terms refused, the decoding of words written out from the
opcode map (R106, R107), one step each on the vectors of 95_test_vectors.md, and, for every
obligation with hypotheses, states and operands that meet them at the ends of each clause's range. -/

namespace Sys2Proof.Tests

open Sys2Proof.Machine

/-! ### WellFormed -/

/-- Each check has an ill-formed term: a no-op that another row of its group claims. -/
theorem test_ill_formed_refused :
    [Instr.sys 0x0E0, .sys 0x7EE, .nop8 0x1 0x2 0x0, .nop8 0x1 0x2 0x7, .nop8 0x1 0x2 0xE,
      .nopE 0x3 0x9E, .nopE 0x3 0xA1, .nopF 0x4 0x07, .nopF 0x4 0x65].all
      (fun i => i.wellFormed == false) = true := by decide

/-- The neighbouring terms are well-formed. -/
theorem test_well_formed_accepted :
    [Instr.sys 0x0E1, .sys 0xE00, .nop8 0x1 0x2 0x8, .nop8 0x1 0x2 0xF, .nopE 0x3 0x9F,
      .nopE 0x3 0xA0, .nopF 0x4 0x08, .nopF 0x4 0x66, .cls 0xF, .ret 0xF].all
      Instr.wellFormed = true := by decide

/-! ### Decode: the word of every row, written out from R106 and R107 -/

theorem test_decode_groups_0_to_7 :
    decode 0b0000_0000_1110_0000 = .cls 0x0 ∧ decode 0b0000_0000_1110_1110 = .ret 0x0 ∧
    decode 0b0000_0001_0010_0011 = .sys 0x123 ∧ decode 0b0001_0010_0011_0100 = .jp 0x234 ∧
    decode 0b0010_0011_0000_0001 = .call 0x301 ∧ decode 0b0011_0011_0001_0010 = .seImm 0x3 0x12 ∧
    decode 0b0100_0011_0001_0010 = .sneImm 0x3 0x12 ∧
    decode 0b0101_0001_0010_0000 = .seReg 0x1 0x2 0x0 ∧
    decode 0b0110_1111_0100_0010 = .ldImm 0xF 0x42 ∧
    decode 0b0111_0010_0000_0001 = .addImm 0x2 0x01 := by decide

theorem test_decode_group_8 :
    decode 0b1000_1010_1011_0000 = .ldReg 0xA 0xB ∧ decode 0b1000_1010_1011_0001 = .orReg 0xA 0xB ∧
    decode 0b1000_1010_1011_0010 = .andReg 0xA 0xB ∧ decode 0b1000_1010_1011_0011 = .xorReg 0xA 0xB ∧
    decode 0b1000_1010_1011_0100 = .addReg 0xA 0xB ∧ decode 0b1000_1010_1011_0101 = .subReg 0xA 0xB ∧
    decode 0b1000_1010_1011_0110 = .shr 0xA 0xB ∧ decode 0b1000_1010_1011_0111 = .subnReg 0xA 0xB ∧
    decode 0b1000_1010_1011_1110 = .shl 0xA 0xB ∧
    decode 0b1000_1010_1011_1111 = .nop8 0xA 0xB 0xF := by decide

theorem test_decode_groups_9_to_E :
    decode 0b1001_1010_1011_0111 = .sneReg 0xA 0xB 0x7 ∧ decode 0b1010_1111_1111_1110 = .ldI 0xFFE ∧
    decode 0b1011_0011_0000_0001 = .jpV0 0x301 ∧ decode 0b1100_0011_0000_1111 = .rnd 0x3 0x0F ∧
    decode 0b1101_0001_0010_0101 = .drw 0x1 0x2 0x5 ∧ decode 0b1110_0001_1001_1110 = .skp 0x1 ∧
    decode 0b1110_0001_1010_0001 = .sknp 0x1 ∧
    decode 0b1110_0001_1010_0000 = .nopE 0x1 0xA0 := by decide

theorem test_decode_group_F :
    decode 0b1111_0100_0000_0111 = .ldVxDt 0x4 ∧ decode 0b1111_0011_0000_1010 = .ldVxK 0x3 ∧
    decode 0b1111_0100_0001_0101 = .ldDtVx 0x4 ∧ decode 0b1111_0100_0001_1000 = .ldStVx 0x4 ∧
    decode 0b1111_0100_0001_1110 = .addI 0x4 ∧ decode 0b1111_0010_0010_1001 = .ldF 0x2 ∧
    decode 0b1111_1010_0011_0011 = .ldB 0xA ∧ decode 0b1111_0001_0101_0101 = .ldMemVx 0x1 ∧
    decode 0b1111_0010_0110_0101 = .ldVxMem 0x2 ∧
    decode 0b1111_0000_0011_0000 = .nopF 0x0 0x30 := by decide

/-- Big-endian (R78), half a word refused by name (R109). -/
theorem test_decode_bytes :
    decodeBytes [0x12, 0x34, 0x56] = .ok (.jp 0x234, [0x56]) ∧
    decodeBytes [0x12] = .error .truncated ∧ decodeBytes [] = .error .truncated ∧
    encodeBytes (.jp 0x234) = [0x12, 0x34] := by decide

theorem test_decode_table_word :
    decodeTableWord 16 0x00E0 = some (.cls 0x0) ∧ decodeTableWord 16 0xFF65 = some (.ldVxMem 0xF) := by
  decide

/-! ### One step each, on the vectors of 95_test_vectors.md -/

/-- The next state of an answer, `none` where it stops. -/
def nextOf : Result → Option State
  | .next t => some t
  | .fault _ => none
  | .refused _ => none

/-- The next state of one step on `s` with the word `w` placed at PC. -/
def after (w : Nat) (s : State) : Option State := nextOf (step (s.withFetchWord 16 w))

/-- Reset with some general registers set. -/
def withRegs (rs : List (Nibble × Byte)) : State :=
  rs.foldl (fun s r => s.setReg r.1 r.2) State.reset

/-- Reset with PC and I as given. -/
def placed (pc i : Word) : State := { State.reset with pc := pc, i := i }

/-- Registers X, F and PC. -/
def xFlagPc (x : Nibble) (t : State) : Nat × Nat × Nat :=
  ((t.reg x).toNat, (t.reg 0xF).toNat, t.pc.toNat)

/-- Mode, fault kind, fault info, PC. -/
def ending (t : State) : Mode × FaultKind × Nat × Nat := (t.mode, t.faultKind, t.faultInfo, t.pc.toNat)

/-- W3: 0xFF + 0x02 carries. -/
theorem test_add_carries :
    (after 0x8014 (withRegs [(0x0, 0xFF), (0x1, 0x02)])).map (xFlagPc 0x0) = some (0x01, 1, 0x202) := by
  decide

/-- 2.4: with VF as the destination the flag is written last. -/
theorem test_add_into_flag :
    (after 0x8F14 (withRegs [(0xF, 0xFF), (0x1, 0x01)])).map (xFlagPc 0x1) = some (0x01, 1, 0x202) := by
  decide

/-- W10: equal operands do not borrow. -/
theorem test_sub_equal_no_borrow :
    (after 0x8015 (withRegs [(0x0, 0x05), (0x1, 0x05)])).map (xFlagPc 0x0) = some (0x00, 1, 0x202) := by
  decide

/-- W10: 4 - 5 borrows. -/
theorem test_sub_borrows :
    (after 0x8015 (withRegs [(0x0, 0x04), (0x1, 0x05)])).map (xFlagPc 0x0) = some (0xFF, 0, 0x202) := by
  decide

/-- 2.4: SUBN subtracts the other way round. -/
theorem test_subn_borrows :
    (after 0x8017 (withRegs [(0x0, 0x0A), (0x1, 0x03)])).map (xFlagPc 0x0) = some (0xF9, 0, 0x202) := by
  decide

/-- 2.4: SHR ignores Y. -/
theorem test_shr_in_place :
    (after 0x8456 (withRegs [(0x4, 0x04), (0x5, 0xFF)])).map (xFlagPc 0x4) = some (0x02, 0, 0x202) := by
  decide

/-- 2.4: VF = 0x03 shifted right ends as the flag. -/
theorem test_shr_flag_itself :
    (after 0x8F06 (withRegs [(0xF, 0x03)])).map (xFlagPc 0x0) = some (0, 1, 0x202) := by decide

/-- 2.4: the top bit leaves. -/
theorem test_shl_top_bit :
    (after 0x840E (withRegs [(0x4, 0x80)])).map (xFlagPc 0x4) = some (0x00, 1, 0x202) := by decide

/-- 2.4: OR leaves VF. -/
theorem test_or_keeps_flag :
    (after 0x8011 (withRegs [(0x0, 0x0F), (0x1, 0xF0), (0xF, 0x05)])).map (xFlagPc 0x0) =
      some (0xFF, 5, 0x202) := by decide

theorem test_and :
    (after 0x8012 (withRegs [(0x0, 0x3C), (0x1, 0x0F)])).map (xFlagPc 0x0) = some (0x0C, 0, 0x202) := by
  decide

theorem test_xor_itself :
    (after 0x8003 (withRegs [(0x0, 0x3C)])).map (xFlagPc 0x0) = some (0x00, 0, 0x202) := by decide

theorem test_ld_register :
    (after 0x83F0 (withRegs [(0xF, 0x21)])).map (xFlagPc 0x3) = some (0x21, 0x21, 0x202) := by decide

theorem test_ld_immediate :
    (after 0x6F42 State.reset).map (xFlagPc 0x0) = some (0, 0x42, 0x202) := by decide

/-- 2.4: no carry flag. -/
theorem test_add_immediate_wraps :
    (after 0x7201 (withRegs [(0x2, 0xFF)])).map (xFlagPc 0x2) = some (0x00, 0, 0x202) := by decide

/-- 2.4: masked by 0, any draw gives 0, and it counts as a draw. -/
theorem test_rnd_mask_zero :
    (after 0xC000 (withRegs [(0x0, 0x77)])).map (fun t => (t.draws, t.pc.toNat)) = some (1, 0x202) := by
  decide

/-- 2.3: skips. -/
theorem test_skips_taken :
    (after 0x3312 (withRegs [(0x3, 0x12)])).map (·.pc.toNat) = some 0x204 ∧
    (after 0x4312 (withRegs [(0x3, 0x13)])).map (·.pc.toNat) = some 0x204 ∧
    (after 0x5121 (withRegs [(0x1, 7), (0x2, 7)])).map (·.pc.toNat) = some 0x204 ∧
    (after 0x9120 (withRegs [(0x1, 7), (0x2, 8)])).map (·.pc.toNat) = some 0x204 := by decide

theorem test_skips_not_taken :
    (after 0x3312 (withRegs [(0x3, 0x13)])).map (·.pc.toNat) = some 0x202 ∧
    (after 0x4312 (withRegs [(0x3, 0x12)])).map (·.pc.toNat) = some 0x202 ∧
    (after 0x5120 (withRegs [(0x1, 7), (0x2, 8)])).map (·.pc.toNat) = some 0x202 ∧
    (after 0x9120 (withRegs [(0x1, 7), (0x2, 7)])).map (·.pc.toNat) = some 0x202 := by decide

/-- 2.3: the sum does not wrap at the address space. -/
theorem test_jump_offset :
    (after 0xBFFF (withRegs [(0x0, 0xFF)])).map (·.pc.toNat) = some 0x10FE ∧
    (after 0xB200 (withRegs [(0x5, 0xFF)])).map (·.pc.toNat) = some 0x200 := by decide

theorem test_jump : (after 0x1FFF State.reset).map (·.pc.toNat) = some 0x0FFF := by decide

/-- 2.3: the 16th push. -/
theorem test_call_last_entry :
    (after 0x2400 { placed 0x250 0 with sp := 15 }).map
      (fun t => ((t.stackEntry 15).toNat, t.sp.val, t.pc.toNat)) = some (0x252, 16, 0x400) := by decide

/-- 2.3: the 17th push. -/
theorem test_call_overflow :
    (after 0x2400 { placed 0x250 0 with sp := 16 }).map (fun t => (ending t, t.sp.val)) =
      some ((.halted, .stackOverflow, 0x250, 0x250), 16) := by decide

theorem test_ret :
    (after 0x00EE { placed 0x300 0 with sp := 1, stack := State.reset.stack.set 0 0x204 }).map
      (fun t => (t.pc.toNat, t.sp.val)) = some (0x204, 0) := by decide

theorem test_ret_underflow :
    (after 0x00EE (placed 0x300 0)).map ending = some (.halted, .stackUnderflow, 0x300, 0x300) := by
  decide

/-- 2.2: no-ops of the four groups. -/
theorem test_noops :
    (after 0x8008 (placed 0x300 0)).map ending = some (.run, .none, 0, 0x302) ∧
    (after 0x0123 (placed 0xFFE 0)).map ending = some (.run, .none, 0, 0x1000) ∧
    (after 0xE0A0 (placed 0x300 0)).map ending = some (.run, .none, 0, 0x302) ∧
    (after 0xF030 (placed 0x300 0)).map ending = some (.run, .none, 0, 0x302) := by decide

theorem test_ld_index : (after 0xAFFF State.reset).map (·.i.toNat) = some 0x0FFF := by decide

/-- 2.5: the sum that fits, and the one that does not. -/
theorem test_add_index :
    (after 0xF01E { withRegs [(0x0, 0x20)] with i := 0x0FF0 }).map
      (fun t => (t.i.toNat, (t.reg 0xF).toNat)) = some (0x1010, 0) ∧
    (after 0xF01E { withRegs [(0x0, 0x01)] with i := 0xFFFF }).map (fun t => (ending t, t.i.toNat)) =
      some ((.halted, .valueOutOfRange, 0x10000, 0x200), 0xFFFF) := by decide

/-- 2.5: the low nibble selects the glyph. -/
theorem test_ld_font :
    (after 0xF029 (withRegs [(0x0, 0x1F)])).map (·.i.toNat) = some 0x09B ∧
    (after 0xF229 (withRegs [(0x2, 0x0A)])).map (·.i.toNat) = some 0x082 := by decide

/-- Bytes of memory from `a` upward. -/
def bytesAt (a n : Nat) (t : State) : List Nat := (List.range n).map fun k => (t.mem.get (a + k)).toNat

theorem test_bcd :
    (after 0xF033 { withRegs [(0x0, 0xFF)] with i := 0x300 }).map (bytesAt 0x300 3) =
      some [2, 5, 5] := by decide

/-- 2.5: the third digit does not fit, the first two stay written. -/
theorem test_bcd_fault :
    (after 0xF033 { withRegs [(0x0, 0x7B)] with i := 0x0FFE }).map
      (fun t => (bytesAt 0xFFE 2 t, ending t)) =
      some ([1, 2], .halted, .addressOutOfRange, 0x1000, 0x200) := by decide

theorem test_dump :
    (after 0xF055 { withRegs [(0x0, 0xAB), (0x1, 0xCD)] with i := 0x400 }).map
      (fun t => (bytesAt 0x400 2 t, t.i.toNat)) = some ([0xAB, 0], 0x400) := by decide

/-- 2.5: two of three bytes fit. -/
theorem test_dump_fault :
    (after 0xF255 { withRegs [(0x0, 1), (0x1, 2), (0x2, 3)] with i := 0xFFE }).map
      (fun t => (bytesAt 0xFFE 2 t, ending t)) =
      some ([1, 2], .halted, .addressOutOfRange, 0x1000, 0x200) := by decide

/-- 2.5: the first byte of glyph 0. -/
theorem test_load_font_byte :
    (after 0xF065 (placed 0x200 0x050)).map (xFlagPc 0x0) = some (0xF0, 0, 0x202) := by decide

/-- 2.5: V0 is loaded before the fault, V1 stays. -/
theorem test_load_fault :
    (after 0xF165 { placed 0x200 0xFFF with mem := [(0xFFF, 0x55)] }).map
      (fun t => ((t.reg 0x0).toNat, (t.reg 0x1).toNat, ending t)) =
      some (0x55, 0, .halted, .addressOutOfRange, 0x1000, 0x200) := by decide

/-! ### Display -/

/-- Memory 0x300 holds `b`, I = 0x300, V0 and V1 as given. -/
def sprite (b v0 v1 : Byte) : State :=
  { withRegs [(0x0, v0), (0x1, v1), (0xF, 0x01)] with i := 0x300, mem := [(0x300, b)] }

/-- The lit columns of a row. -/
def litCols (r : Nat) (t : State) : List Nat := (List.range 64).filter (t.fb.pixel r)

/-- W5: the right edge clips. -/
theorem test_draw_clips :
    (after 0xD011 (sprite 0xFF 0x3F 0x00)).map (fun t => (litCols 0 t, (t.reg 0xF).toNat)) =
      some ([63], 0) := by decide

/-- 2.6: the origin wraps in both directions; a second draw collides. -/
theorem test_draw_wraps_and_collides :
    ((after 0xD011 (sprite 0xC0 0x43 0x20)).bind (after 0xD011)).map
      (fun t => (litCols 0 t, (t.reg 0xF).toNat)) = some ([], 1) ∧
    (after 0xD011 (sprite 0xC0 0x43 0x20)).map (litCols 0) = some [3, 4] := by decide

/-- 2.6: all bytes are read before a pixel changes. -/
theorem test_draw_fault :
    (after 0xD013 { sprite 0x80 0x00 0x00 with i := 0xFFE }).map
      (fun t => (litCols 0 t, (t.reg 0xF).toNat, ending t)) =
      some ([], 1, .halted, .addressOutOfRange, 0x1000, 0x200) := by decide

theorem test_cls :
    ((after 0xD011 (sprite 0xFF 0x00 0x00)).bind (after 0x00E0)).map (litCols 0) = some [] := by decide

/-! ### Keypad and timers -/

/-- 2.7: key A down. -/
theorem test_skp_sknp :
    (after 0xE19E ((withRegs [(0x1, 0x0A)]).setKey 0xA true)).map (·.pc.toNat) = some 0x204 ∧
    (after 0xE1A1 ((withRegs [(0x1, 0x0A)]).setKey 0xA true)).map (·.pc.toNat) = some 0x202 := by
  decide

/-- 2.7: key indices above 15 fault. -/
theorem test_skp_sknp_fault :
    (after 0xE19E (withRegs [(0x1, 0x10)])).map ending =
      some (.halted, .keyIndexOutOfRange, 0x10, 0x200) ∧
    (after 0xE1A1 (withRegs [(0x1, 0xFF)])).map ending =
      some (.halted, .keyIndexOutOfRange, 0xFF, 0x200) := by decide

/-- 2.7: FX0A enters the wait with PC at itself. -/
theorem test_key_wait : (after 0xF30A (placed 0x210 0)).map ending =
    some (.waitKey 0x3, .none, 0, 0x210) := by decide

/-- 2.7: WAIT_KEY(15): the release is no transition, the press completes the wait at 0x212, all at one boundary,
after which the no-op there runs. -/
theorem test_key_wait_completes :
    (nextOf (step { placed 0x210 0 with
      mode := .waitKey 0xF, keys := State.reset.keys.set 12 true
      schedule := [[.keyPress 0xC, .keyRelease 0xC, .keyPress 0xC, .keyRelease 0x3]] })).map
      (fun t => (xFlagPc 0xF t, t.key 0xC, t.mode)) = some ((0x0C, 0x0C, 0x214), true, .run) := by decide

theorem test_timer_instructions :
    (after 0xF407 { State.reset with dt := 0x3C }).map (xFlagPc 0x4) = some (0x3C, 0, 0x202) ∧
    (after 0xFF15 (withRegs [(0xF, 0x09)])).map (·.dt.toNat) = some 9 ∧
    (after 0xF418 (withRegs [(0x4, 0x02)])).map (fun t => (t.st.toNat, t.soundOn)) =
      some (2, true) := by decide

/-- 2.7: a tick at the boundary before the instruction. -/
theorem test_tick_before_instruction :
    (nextOf (step { State.reset with dt := 1, st := 2, schedule := [[.tick]] })).map
      (fun t => (t.dt.toNat, t.st.toNat, t.pc.toNat)) = some (0, 1, 0x202) := by decide

/-- 2.2: an odd PC at the top: the second byte faults. -/
theorem test_fetch_fault : (after 0x0000 (placed 0xFFF 0)).map ending =
    some (.halted, .addressOutOfRange, 0x1000, 0xFFF) := by decide

/-- 2.2: the final modes. -/
theorem test_final_modes :
    step { State.reset with mode := .halted } = .fault .halted ∧
    step { State.reset with mode := .stopped } = .fault .stopped ∧
    State.events { State.reset with mode := .halted, dt := 5 } [.tick, .keyPress 0x1, .quit] =
      { State.reset with mode := .halted, dt := 5 } := ⟨rfl, rfl, by decide⟩

/-- 2.8: the ROM bytes stand from 0x200, and what the ports say. -/
theorem test_power_on :
    bytesAt 0x200 3 (State.powerOn (.image [0x12, 0x00]) .chip8) = [0x12, 0, 0] ∧
    (State.powerOn .unreadable .schip).statusPort = ⟨2, 7, 0⟩ ∧
    (State.powerOn .unreadable .schip).framePort.width = 128 := by decide

/-- R32, R33, 90_conflicts.md C2, U11: the register file by index, code 2 above 15. -/
theorem test_register_port :
    State.reset.regFileWrite 0 256 = State.reset ∧
    (State.reset.regFileRead 16).1 = none ∧
    (State.reset.regFileRead 16).2.statusPort = ⟨2, 2, 16⟩ ∧
    (State.reset.regFileWrite 16 1).statusPort = ⟨2, 2, 16⟩ ∧
    (State.regFileWrite { State.reset with mode := .stopped } 16 1).statusPort = ⟨3, 0, 0⟩ := by decide

/-- R43, R291: the stack's peek, and the keypad by index. -/
theorem test_stack_and_key_ports :
    State.reset.stackPeek.2.statusPort = ⟨2, 5, 0x200⟩ ∧
    (State.reset.keypadWrite 16 true).statusPort = ⟨2, 3, 16⟩ ∧
    State.reset.keypadWrite 15 true = State.reset.setKey 0xF true ∧
    (State.keypadWrite { placed 0x210 0 with mode := .waitKey 0x3 } 7 true).statusPort = ⟨0, 0, 0⟩ ∧
    xFlagPc 0x3 (State.keypadWrite { placed 0x210 0 with mode := .waitKey 0x3 } 7 true) =
      (7, 0, 0x212) := by decide

/-- R143, R355: the host's reset starts a stopped core again; a status read changes nothing. -/
theorem test_host_actions :
    (State.hostAct { State.reset with mode := .stopped } (.reset (.image []) .chip8)) = State.reset ∧
    State.reset.hostAct .readStatus = State.reset ∧
    (State.reset.hostAct (.event .quit)).statusPort = ⟨3, 0, 0⟩ := by decide

/-! ### Witnesses: states and operands that meet the hypotheses of each obligation

Named after the obligation; where a clause has a range, both of its ends, and the value next to them
under the neighbouring clause, are among the states. -/

/-- The bounds of `fetchable`, which most statements assume. -/
theorem witness_fetchable : State.reset.fetchable ∧ (placed 0 0).fetchable ∧
    (placed 0x0FFE 0).fetchable ∧ ¬ (placed 0x0FFF 0).fetchable := by decide

theorem witness_DecodeInvertsEncode : (Instr.drw 0xF 0x0 0xF).wellFormed = true ∧
    (Instr.nopF 0xF 0xFF).wellFormed = true ∧ (Instr.sys 0x0EF).wellFormed = true := by decide

theorem witness_StepRunsDecodedInstruction :
    State.reset.mode = .run ∧ State.reset.quiet ∧ State.reset.fetchable ∧
    decode (bigEndian (State.reset.mem.get State.reset.pc.toNat)
      (State.reset.mem.get (State.reset.pc.toNat + 1))) = .sys 0x000 := by decide

/-- The empty schedule of reset; one schedule that leaves the mode RUN and one that does not, from RUN and from WAIT_KEY. -/
theorem witness_StepTakesEventsFirst :
    State.reset.schedule.headD [] = [] ∧ State.reset.schedule.tail = [] ∧
    (State.events { State.reset with schedule := [] } []).mode = .run ∧
    (State.events { placed 0x1000 0 with schedule := [] } []).mode = .run ∧
    (State.events { State.reset with schedule := [] } [.tick]).mode = .run ∧
    (State.events { State.reset with schedule := [] } [.quit]).mode ≠ .run ∧
    (State.events { State.reset with mode := .waitKey 0x3 } [.keyPress 0x1]).mode = .run ∧
    (State.events { State.reset with mode := .waitKey 0x3 } []).mode ≠ .run := by decide

theorem witness_FetchReadsTwoBytesOrFaults :
    (placed 0x0FFE 0).pc.toNat ≤ 0x0FFE ∧ (placed 0x0FFF 0).pc.toNat = 0x0FFF ∧
    4096 ≤ (placed 0x1000 0).pc.toNat ∧ 4096 ≤ (placed 0xFFFF 0).pc.toNat := by decide

theorem witness_EndedRunIsFinal :
    (State.reset.raise ⟨.romLoadError, 0⟩).mode = .halted ∧ (State.reset.event .quit).mode = .stopped := by
  decide

theorem witness_KeyWaitRunsNoInstruction :
    (State.mode { State.reset with mode := .waitKey 0xF }) = .waitKey 0xF ∧
    State.quiet { State.reset with mode := .waitKey 0xF } := by decide

/-- One entry, all entries, none. -/
theorem witness_ReturnPopsOrUnderflows :
    0 < (State.sp { State.reset with sp := 1 }).val ∧ 0 < (State.sp { State.reset with sp := 16 }).val ∧
    State.reset.sp.val = 0 := by decide

/-- No entry, 15 entries, 16 entries; the same states serve ReturnUndoesCall. -/
theorem witness_CallPushesOrOverflows :
    State.reset.fetchable ∧ State.reset.sp.val < 16 ∧
    (State.sp { State.reset with sp := 15 }).val < 16 ∧
    (State.sp { State.reset with sp := 16 }).val = 16 := by decide

theorem witness_ReturnUndoesCall : (placed 0x0FFE 0).fetchable ∧ (placed 0x0FFE 0).sp.val < 16 := by
  decide

theorem witness_NoOpsOnlyAdvance : State.reset.fetchable ∧ (Instr.sys 0xFFF).isNoOp = true ∧
    (Instr.nop8 0x0 0x0 0x8).isNoOp = true ∧ (Instr.nopE 0x0 0x00).isNoOp = true ∧
    (Instr.nopF 0x0 0x00).isNoOp = true := by decide

/-- X the flag register and not, for the statements that distinguish the two. -/
theorem witness_flag_destination : (0x0 : Nibble) ≠ 0xF ∧ (0xE : Nibble) ≠ 0xF ∧
    ¬ ((0xF : Nibble) ≠ 0xF) ∧ State.reset.fetchable := by decide

/-- A bit outside the mask. -/
theorem witness_RandomIsMasked : (0x0F : Byte).getLsbD 4 = false ∧ State.reset.fetchable := by decide

/-- The largest sum that fits, and the smallest that does not. -/
theorem witness_AddIndexOrValueFault :
    (placed 0x200 0xFFFF).fetchable ∧
    (placed 0x200 0xFFFF).i.toNat + ((placed 0x200 0xFFFF).reg 0x0).toNat ≤ 0xFFFF ∧
    0xFFFF < ((placed 0x200 0xFFFF).setReg 0x0 1).i.toNat +
      (((placed 0x200 0xFFFF).setReg 0x0 1).reg 0x0).toNat := by decide

/-- Three digits that just fit; the third, the second and the first that does not. -/
theorem witness_BcdStoresDigits :
    (placed 0x200 0x0FFD).memOk ∧ (placed 0x200 0x0FFD).fetchable ∧
    (placed 0x200 0x0FFD).i.toNat + 2 < 4096 ∧
    (4096 ≤ (placed 0x200 0x0FFE).i.toNat + 2 ∧ (placed 0x200 0x0FFE).i.toNat + 1 < 4096) ∧
    (4096 ≤ (placed 0x200 0x0FFF).i.toNat + 2 ∧ (placed 0x200 0x0FFF).i.toNat < 4096) ∧
    4096 ≤ (placed 0x200 0x1000).i.toNat + 2 := by decide

/-- Sixteen bytes that just fit, sixteen that do not, and one at 4096; for DumpStoresRegisters,
LoadFillsRegisters and (from PC 0x0FFC) LoadUndoesDump. -/
theorem witness_DumpStoresRegisters :
    (placed 0x0FFC 0x0FF0).memOk ∧ (placed 0x0FFC 0x0FF0).fetchable ∧
    (placed 0x0FFC 0x0FF0).pc.toNat ≤ 0x0FFC ∧
    (placed 0x0FFC 0x0FF0).i.toNat + (0xF : Nibble).toNat < 4096 ∧
    4096 ≤ (placed 0x200 0x0FF1).i.toNat + (0xF : Nibble).toNat ∧
    (placed 0x200 0x0FF1).i.toNat + (0xE : Nibble).toNat < 4096 ∧
    4096 ≤ (placed 0x200 0x1000).i.toNat + (0x0 : Nibble).toNat := by decide

/-- No byte, fifteen bytes that just fit, fifteen that do not, one at 4096. -/
theorem witness_DrawXorsSprite :
    (placed 0x200 0xFFFF).fetchable ∧ (0x0 : Nibble) = 0 ∧
    (placed 0x200 0x0FF1).i.toNat + (0xF : Nibble).toNat ≤ 4096 ∧
    4096 < (placed 0x200 0x0FF2).i.toNat + (0xF : Nibble).toNat ∧ (0xF : Nibble) ≠ 0 ∧
    4096 < (placed 0x200 0x1000).i.toNat + (0x1 : Nibble).toNat ∧ (0x1 : Nibble) ≠ 0 := by decide

/-- A word under each of the three masks, for the encodings that begin a statement; and a group-0 word
for NoOpsOnlyAdvance. -/
theorem witness_Encodes : (0x1234 : Word) &&& 0xF000 = 0x1000 ∧ (0x0FEE : Word) &&& 0xF0FF = 0x00EE ∧
    (0x8AB7 : Word) &&& 0xF00F = 0x8007 ∧ fieldOp 0x0EE0 = 0x0 ∧ fieldNN 0x0EE1 ≠ 0xE0 ∧
    fieldNN 0x0EE1 ≠ 0xEE := by decide

/-- The lowest and the highest PC, each store at the last place it fits. -/
theorem witness_NextFetchSeesStore :
    (placed 0 2).memOk ∧ (placed 0 2).pc.toNat ≤ 0x0FFC ∧ (placed 0 2).i.toNat + 2 < 4096 ∧
    (placed 0x0FFC 0x0FFD).memOk ∧ (placed 0x0FFC 0x0FFD).pc.toNat ≤ 0x0FFC ∧
    (placed 0x0FFC 0x0FFD).i.toNat + 2 < 4096 ∧
    (placed 0x0FFC 0x0FFE).i.toNat + (0x1 : Nibble).toNat < 4096 ∧
    (placed 0x0FFC 0x0FF0).i.toNat + (0xF : Nibble).toNat < 4096 := by decide

/-- R90, R371: FX33 at PC + 2 stores 02 05 05, and the next fetch reads 0205; at PC + 3 it reads the old
byte and the hundreds. -/
theorem test_store_over_next_word :
    ((after 0xF033 { withRegs [(0x0, 0xFF)] with i := 0x202 }).map
      (fun t => t.fetch.toOption.map BitVec.toNat)) = some (some 0x0205) ∧
    ((after 0xF033 { withRegs [(0x0, 0xFF)] with i := 0x203 }).map
      (fun t => t.fetch.toOption.map BitVec.toNat)) = some (some 0x0002) := by decide

/-- A press outside a wait, an event that is no press in a wait, an event that is no tick and no key
event. -/
theorem witness_EventsOnlyUpdateInputs :
    (∀ x, State.reset.mode ≠ .waitKey x) ∧ (∀ k, Event.tick ≠ .keyPress k) ∧ Event.quit ≠ .tick ∧
    (∀ k, Event.quit ≠ .keyPress k) ∧ (∀ k, Event.quit ≠ .keyRelease k) ∧
    Event.readFrame = .readFrame := by
  refine ⟨fun x h => ?_, fun k h => ?_, by decide, fun k h => ?_, fun k h => ?_, rfl⟩ <;> cases h

/-- A pixel above, below, left and right of a sprite of two rows at the middle of the grid. -/
theorem witness_SpriteBodyClips :
    (4 < 5 % State.reset.fb.displayMode.height) ∧ (5 % State.reset.fb.displayMode.height + 2 ≤ 7) ∧
    (9 < 10 % State.reset.fb.displayMode.width) ∧ (10 % State.reset.fb.displayMode.width + 8 ≤ 18) := by
  decide

/-- Key 0, key 15, and the values 16 and 255 that name none. -/
theorem witness_SkipsTestKeys :
    (State.reset.reg 0x0).toNat = (0x0 : Nibble).toNat ∧
    ((withRegs [(0x1, 0x0F)]).reg 0x1).toNat = (0xF : Nibble).toNat ∧
    15 < ((withRegs [(0x1, 0x10)]).reg 0x1).toNat ∧ 15 < ((withRegs [(0x1, 0xFF)]).reg 0x1).toNat := by
  decide

/-- A key up and a key down in a wait at the last place an FX0A can stand. -/
theorem witness_KeyPressCompletesWait :
    (State.mode { placed 0x0FFE 0 with mode := .waitKey 0xF }) = .waitKey 0xF ∧
    State.fetchable { placed 0x0FFE 0 with mode := .waitKey 0xF } ∧
    State.key { placed 0x0FFE 0 with mode := .waitKey 0xF } 0xF = false ∧
    (State.setKey { placed 0x0FFE 0 with mode := .waitKey 0xF } 0xF true).key 0xF = true := by decide

/-- RUN, WAIT_KEY, and for the clauses on final modes HALTED and STOPPED; for TickCountsDown,
TicksReachZero, KeyEventsWriteKeypad, QuitStopsRun, EveryInstructionAnswers, and for RomFaultsHalt, whose
register indices meet at 15 and 16. -/
theorem witness_live_modes : State.reset.mode = .run ∧
    (∃ x, (State.mode { State.reset with mode := .waitKey 0x0 }) = .waitKey x) ∧
    (State.mode { State.reset with mode := .halted }) = .halted ∧
    (State.mode { State.reset with mode := .stopped }) = .stopped ∧ 15 ≤ 15 ∧ 15 < 16 :=
  ⟨rfl, ⟨0x0, rfl⟩, rfl, rfl, by decide, by decide⟩

/-- An instruction that faults and is no transfer, and a transfer that faults. -/
theorem witness_FaultLeavesStateAsBefore :
    State.reset.fetchable ∧ State.reset.mode = .run ∧
    exec (.ret 0x0) State.reset = .next (State.reset.raise ⟨.stackUnderflow, 0x200⟩) ∧
    (State.reset.raise ⟨.stackUnderflow, 0x200⟩).mode = .halted ∧
    (Instr.ret 0x0).transfers = false ∧
    exec (.ldVxMem 0x0) (placed 0x200 0x1000) =
      .next ((placed 0x200 0x1000).raise ⟨.addressOutOfRange, 0x1000⟩) :=
  ⟨by decide, rfl, rfl, rfl, rfl, rfl⟩

/-- Every named arm of FaultsHaveTheirCause is reached. -/
theorem witness_FaultsHaveTheirCause :
    [exec (.ret 0x0) State.reset, exec (.call 0x300) { State.reset with sp := 16 },
      exec (.skp 0x1) (withRegs [(0x1, 0x10)]), exec (.sknp 0x1) (withRegs [(0x1, 0x10)]),
      exec (.addI 0x1) { withRegs [(0x1, 0x01)] with i := 0xFFFF },
      exec (.drw 0x0 0x0 0x1) (placed 0x200 0x1000), exec (.ldB 0x0) (placed 0x200 0x0FFE),
      exec (.ldMemVx 0x1) (placed 0x200 0x0FFF), exec (.ldVxMem 0x1) (placed 0x200 0x0FFF)].all
      (fun r => (nextOf r).map State.mode == some .halted) = true := by decide

theorem witness_DefaultAdvance :
    State.reset.fetchable ∧ State.reset.mode = .run ∧ (Instr.ldI 0x300).advances = true ∧
    exec (.ldI 0x300) State.reset = .next (placed 0x202 0x300) ∧
    (placed 0x202 0x300).mode ≠ .halted := ⟨by decide, rfl, rfl, rfl, by decide⟩

/-- For OnlyNamedInstructionsWrite and StatusOnlyByFaultOrWait. -/
theorem witness_StatusOnlyByFaultOrWait :
    exec (.jp 0x300) State.reset = .next (placed 0x300 0) ∧ (placed 0x300 0).mode ≠ .halted ∧
    (∀ x, Instr.jp 0x300 ≠ .ldVxK x) := by
  refine ⟨rfl, by decide, fun x h => by cases h⟩

/-- A step from reset, where all four invariants' hypotheses hold (MemoryFormKept, PcStaysBounded,
FaultRecordKept, DisplayModeFixed). -/
theorem witness_invariants : State.reset.memOk ∧ State.reset.PcOk ∧ State.reset.RecordOk ∧
    step State.reset = .next (placed 0x202 0) :=
  ⟨by decide, ⟨by decide, by decide, by decide⟩, ⟨by decide, by decide⟩, rfl⟩

/-- The invariants also hold where a run can be at their edges: PC at 0x10FE, an entry at 0x1000, and
a wait at an FX0A at 0x0FFE; memory with an entry at 0x0FFF. A wait at another register's FX0A is
none. -/
theorem witness_invariants_edges :
    State.PcOk { placed 0x10FE 0 with stack := State.reset.stack.set 15 0x1000 } ∧
    State.PcOk { placed 0x0FFE 0 with mode := .waitKey 0x2, mem := [(0xFFE, 0xF2), (0xFFF, 0x0A)] } ∧
    ¬ State.PcOk { placed 0x0FFE 0 with mode := .waitKey 0x3, mem := [(0xFFE, 0xF2), (0xFFF, 0x0A)] } ∧
    State.memOk { State.reset with mem := [(0x0FFF, 0x01)] } ∧
    ¬ State.memOk { State.reset with mem := [(0x1000, 0x01)] } :=
  ⟨⟨by decide, by decide, by decide⟩, ⟨by decide, by decide, fun x h => by cases h; decide⟩,
    fun h => absurd (h.wait 0x3 rfl).2 (by decide), by decide, by decide⟩

/-- A ROM that just fits, for PowerOnState, and one byte more, for RomFaultsHalt. -/
theorem witness_PowerOnState :
    (List.replicate 3584 (0 : Byte)).length ≤ 3584 ∧ 3584 < (List.replicate 3585 (0 : Byte)).length := by
  rw [List.length_replicate, List.length_replicate]
  decide

/-! ### The host's view of the step -/

/-- `withFetchWord` places the word at PC, and the next step runs it, also from a mode in which no
instruction would run. -/
theorem test_with_fetch_word :
    bytesAt 0x200 2 (State.reset.withFetchWord 16 0x6342) = [0x63, 0x42] ∧
    (after 0x6342 { State.reset with mode := .halted, schedule := [[.quit]] }).map
      (fun t => (xFlagPc 0x3 t, t.mode)) = some ((0x42, 0, 0x202), .run) := by decide

end Sys2Proof.Tests
end

section
/-! SUPPORT. What an instruction and an event do to memory and to the framebuffer's mode, and what one
event can do, said once. -/

namespace Sys2Proof.Machine

variable {i : Instr} {s t u : State}

/-! ### Memory and the display mode under `exec` -/

/-- Neither end of an instruction, the new PC or the fault taken, writes memory or the framebuffer. -/
theorem Ends.mem_fb (h : Ends i s u t) : t.mem = u.mem ∧ t.fb = u.fb := by
  cases h with
  | next w eq => subst eq; exact ⟨rfl, rfl⟩
  | fault c eq => subst eq; exact ⟨rfl, rfl⟩

/-- The part of a transfer's bytes that lies below 4096 is stored in canonical form. -/
theorem Memory.wf_setAll_take {m : Memory} (h : m.wf = true) (a : Nat) (bs : List Byte) :
    (m.setAll a (bs.take (4096 - a))).wf = true := by
  by_cases ha : a ≤ 4096
  · refine Memory.wf_setAll ?_ h
    rw [List.length_take, Config.memSize]
    omega
  · have h0 : 4096 - a = 0 := by omega
    rw [h0]
    exact h

/-- The writes of an instruction keep memory in canonical form: only FX33 and FX55 store, and only
below 4096 (R72, R77). -/
theorem Writes.memOk (h : Writes i s u) (hs : s.memOk) : u.memOk := by
  by_cases hi : (∃ x, i = .ldB x) ∨ ∃ x, i = .ldMemVx x
  · obtain ⟨bs, hbs⟩ := h.stored hi
    rw [State.memOk, hbs]
    exact Memory.wf_setAll_take hs s.base bs
  · have hm : u.mem = s.mem :=
      h.mem (fun x hx => hi (.inl ⟨x, hx⟩)) (fun x hx => hi (.inr ⟨x, hx⟩))
    rwa [State.memOk, hm]

theorem exec_keeps_memOk (h : exec i s = .next t) (hs : s.memOk) : t.memOk := by
  obtain ⟨u, hw, he⟩ := exec_cases h
  rw [State.memOk, he.mem_fb.1]
  exact hw.memOk hs

theorem exec_keeps_displayMode (h : exec i s = .next t) : t.fb.displayMode = s.fb.displayMode := by
  obtain ⟨u, hw, he⟩ := exec_cases h
  rw [he.mem_fb.2, hw.displayMode]

/-! ### The events -/

/-- No event writes memory or the framebuffer (R20, R326). -/
theorem State.event_mem_fb (s : State) (e : Event) :
    (s.event e).mem = s.mem ∧ (s.event e).fb = s.fb := by
  obtain ⟨_, _, _, _, _, _, _, _, he⟩ := s.event_form e
  rw [he]
  exact ⟨rfl, rfl⟩

/-- `s` with the key wait ended: key `k` down, its index in the wait's register, RUN; PC not yet past
the FX0A (R285). -/
def State.woken (s : State) (x k : Nibble) : State :=
  { (s.setKey k true).setReg x (k.setWidth 8) with mode := .run }

/-- The completion of a key wait is the default advance of the woken state. -/
theorem State.advance_woken (s : State) (x k : Nibble) :
    (s.woken x k).advance = .next (s.completeWait x k) := by
  simp only [State.advance, State.completeWait, State.woken]
  split <;> rename_i h <;> rw [h] <;> rfl

theorem State.completeWait_timers (s : State) (x k : Nibble) : SameTimers s (s.completeWait x k) := by
  have h := State.writePc_cases (s.advance_woken x k)
  rcases h with ⟨w, h, -⟩ | ⟨-, h⟩ <;> rw [h] <;> exact ⟨rfl, rfl⟩

/-- What event `e` can do in `s`, and when (R135 to R138, R285, R290). -/
inductive EventEffect (s : State) (e : Event) (t : State) : Prop where
  | ended (final : s.mode.live = false) (eq : t = s)
  | read (event : e = .readFrame) (eq : t = s)
  | tick (event : e = .tick) (live : s.mode.live = true) (eq : t = s.tick)
  | press (k : Nibble) (event : e = .keyPress k) (run : s.mode = .run) (eq : t = s.setKey k true)
  | held (x k : Nibble) (event : e = .keyPress k) (wait : s.mode = .waitKey x)
      (down : s.key k = true) (eq : t = s)
  | wake (x k : Nibble) (event : e = .keyPress k) (wait : s.mode = .waitKey x)
      (up : s.key k = false) (eq : t = s.completeWait x k)
  | release (k : Nibble) (event : e = .keyRelease k) (live : s.mode.live = true)
      (eq : t = s.setKey k false)
  | quit (event : e = .quit) (live : s.mode.live = true) (eq : t = { s with mode := .stopped })

/-- A press sets its flag in RUN, and in WAIT_KEY wakes the core if the key was up (R285, R290). -/
theorem State.keyPress_effect (s : State) (k : Nibble) :
    EventEffect s (.keyPress k) (s.keyPress k) := by
  unfold State.keyPress
  split
  case h_1 hm => exact .press k rfl hm rfl
  case h_2 x hm =>
    by_cases hk : s.key k = true
    · rw [if_pos hk]
      exact .held x k rfl hm hk rfl
    · rw [if_neg hk]
      exact .wake x k rfl hm (by simpa using hk) rfl
  case h_3 hm | h_4 hm => exact .ended (by rw [hm]; rfl) rfl

/-- An event that acts only in RUN and WAIT_KEY (R136, R138). -/
theorem EventEffect.of_live {e : Event} (h : s.mode.live = true → EventEffect s e t) :
    EventEffect s e (if s.mode.live then t else s) := by
  split
  case isTrue hl => exact h hl
  case isFalse hl => exact .ended (by simpa using hl) rfl

/-- Everything an event can do. -/
theorem State.event_effect (s : State) (e : Event) : EventEffect s e (s.event e) := by
  cases e with
  | tick => exact .of_live fun live => .tick rfl live rfl
  | keyPress k => exact s.keyPress_effect k
  | keyRelease k => exact .of_live fun live => .release k rfl live rfl
  | quit => exact .of_live fun live => .quit rfl live rfl
  | readFrame => exact .read rfl rfl

section
variable {e : Event}

/-- Only a tick changes a timer (R44, R45). -/
theorem EventEffect.timers (h : EventEffect s e t) (he : e ≠ .tick) : SameTimers s t := by
  cases h with
  | tick event => exact absurd event he
  | wake x k _ _ _ eq => rw [eq]; exact s.completeWait_timers x k
  | ended _ eq | read _ eq | press _ _ _ eq | held _ _ _ _ _ eq | release _ _ _ eq
  | quit _ _ eq => rw [eq]; exact ⟨rfl, rfl⟩

/-- Only a key event changes the keypad (R49). -/
theorem EventEffect.keys (h : EventEffect s e t) (hp : ∀ k, e ≠ .keyPress k)
    (hr : ∀ k, e ≠ .keyRelease k) : SameKeys s t := by
  cases h with
  | press k event | held _ k event | wake _ k event => exact absurd event (hp k)
  | release k event => exact absurd event (hr k)
  | ended _ eq | read _ eq | tick _ _ eq | quit _ _ eq => rw [eq]; exact fun _ => rfl

/-- Only a press in WAIT_KEY transfers control, writes a register or takes a fault. -/
theorem EventEffect.control (h : EventEffect s e t)
    (hw : ∀ x k, s.mode ≠ .waitKey x ∨ e ≠ .keyPress k) :
    t.pc = s.pc ∧ SameRegsBut [] s t ∧ t.faultKind = s.faultKind ∧ t.faultInfo = s.faultInfo := by
  cases h with
  | wake x k event wait => exact ((hw x k).elim (· wait) (· event)).elim
  | ended _ eq | read _ eq | tick _ _ eq | press _ _ _ eq | held _ _ _ _ _ eq | release _ _ _ eq
  | quit _ _ eq =>
    rw [eq]
    exact ⟨rfl, fun _ _ => rfl, rfl, rfl⟩

end

end Sys2Proof.Machine
end

section
/-! PROOFS. The statements of 00_scope.md: the canonical form of memory, the display mode, and the
frame of the events. -/

namespace Sys2Proof.Machine

/-- Settles O53: the events leave memory alone, and an instruction stores only below 4096. -/
theorem memoryFormKept : Obligations.MemoryFormKept := by
  intro s t hs hst
  refine step_induction (P := State.memOk) ?_ ?_ ?_ ?_ hs hst
  · exact fun _ hu _ => hu
  · intro u hu e
    rwa [State.memOk, (u.event_mem_fb e).1]
  · exact fun u hu _ _ i _ t ht => exec_keeps_memOk ht hu
  · exact fun _ hu _ _ => hu

/-- Settles O46, from what one event can do. -/
theorem eventsOnlyUpdateInputs : Obligations.EventsOnlyUpdateInputs := by
  intro s e
  have effect := s.event_effect e
  refine ⟨s.event e, rfl, ?_, effect.timers, effect.keys, effect.control, ?_⟩
  · obtain ⟨_, _, _, _, _, _, _, _, he⟩ := s.event_form e
    rw [he]
  · rintro rfl
    rfl

/-- Settles O56: the events leave the framebuffer alone, and every instruction keeps its mode. -/
theorem displayModeFixed : Obligations.DisplayModeFixed := by
  intro s t hst
  refine step_induction (P := fun u => u.fb.displayMode = s.fb.displayMode) ?_ ?_ ?_ ?_ rfl hst
  · exact fun _ hu _ => hu
  · intro u hu e
    rw [(u.event_mem_fb e).2, hu]
  · exact fun u hu _ _ i _ t ht => (exec_keeps_displayMode ht).trans hu
  · exact fun _ hu _ _ => hu

end Sys2Proof.Machine
end

section
/-! SUPPORT. The facts the statements of 10_state.md share: how the two ends of an instruction leave the
data, a call and a return with their next states, a timer under a tick, and the reset state's reads. -/

namespace Sys2Proof.Machine

variable {i : Instr} {s t u : State}

/-! ### The ends of an instruction -/

/-- Where an instruction ends is in PC, the mode and the fault record alone. -/
theorem Ends.frame (h : Ends i s u t) :
    t = { u with pc := t.pc, mode := t.mode, faultKind := t.faultKind, faultInfo := t.faultInfo } := by
  cases h with
  | next w eq => subst eq; rfl
  | fault c eq => subst eq; rfl

/-- An instruction that ends outside HALTED ends in a new PC, no fault taken. -/
theorem Ends.eq_jump_of_not_halted (h : Ends i s u t) (ht : t.mode ≠ .halted) :
    t = u.jump t.pc ∧ (s.fetchable → i.advances = true → t.pc = s.pc + 2) := by
  cases h with
  | next w eq advance => subst eq; exact ⟨rfl, advance⟩
  | fault c eq => subst eq; exact absurd rfl ht

/-- FX0A starts its wait, and the data writes of every other instruction leave the mode. -/
theorem Writes.mode_cases (h : Writes i s u) :
    (∃ x, i = .ldVxK x ∧ u.mode = .waitKey x) ∨ u.mode = s.mode := by
  by_cases hk : ∃ x, i = .ldVxK x
  · obtain ⟨x, hx⟩ := hk
    exact .inl ⟨x, hx, h.wait x hx⟩
  · exact .inr (h.mode fun x hx => hk ⟨x, hx⟩)

/-- In RUN no instruction's data writes halt. -/
theorem Writes.mode_ne_halted (h : Writes i s u) (hs : s.mode = .run) : u.mode ≠ .halted := by
  rcases h.mode_cases with ⟨x, -, hx⟩ | hsame
  · simp [hx]
  · simp [hsame, hs]

/-! ### The bounds on PC and the stack (R38, R284) -/

/-- The bounds read PC, the stack, the mode and memory alone. -/
theorem State.PcOk.congr (hs : s.PcOk) (hpc : t.pc = s.pc) (hstack : t.stack = s.stack)
    (hmode : t.mode = s.mode) (hmem : t.mem = s.mem) : t.PcOk where
  pc := hpc ▸ hs.pc
  stack n hn := State.stackEntry_congr hstack n ▸ hs.stack n hn
  wait x hx := by
    rw [State.fetchable, State.instrAtPc, hpc, hmem]
    exact hs.wait x (hmode ▸ hx)

/-- Outside a key wait the bounds on PC and the stack are all there is to keep. -/
theorem State.PcOk.of_no_wait (hs : s.PcOk) (hpc : t.pc.toNat ≤ 0x10FE) (hstack : t.stack = s.stack)
    (hmode : ∀ x, t.mode ≠ .waitKey x) : t.PcOk where
  pc := hpc
  stack n hn := State.stackEntry_congr hstack n ▸ hs.stack n hn
  wait x hx := absurd hx (hmode x)

/-- Taking a fault moves neither PC nor the stack and ends a wait. -/
theorem State.PcOk.raise (hs : s.PcOk) (c : Condition) : (s.raise c).PcOk :=
  hs.of_no_wait hs.pc rfl nofun

/-- The entry a RET goes to is in bounds, also where there is none in use. -/
theorem State.PcOk.top (hs : s.PcOk) : (s.stackEntry (s.sp.val - 1)).toNat ≤ 0x1000 :=
  hs.stack _ (by omega)

/-- No event leaves the bounds: only a press that ends a key wait moves PC, and the FX0A it ends can be
fetched (R285). -/
theorem State.event_keeps_pcOk (hs : s.PcOk) (e : Event) : (s.event e).PcOk := by
  cases s.event_effect e with
  | ended _ eq | read _ eq | held _ _ _ _ _ eq => rwa [eq]
  | tick _ _ eq | press _ _ _ eq | release _ _ _ eq => rw [eq]; exact hs.congr rfl rfl rfl rfl
  | quit _ _ eq => rw [eq]; exact hs.of_no_wait hs.pc rfl nofun
  | wake x k _ wait _ eq =>
    obtain ⟨hf, -⟩ := hs.wait x wait
    rw [eq, State.completeWait_eq hf]
    exact hs.of_no_wait (State.pc_add_two_le hf) rfl nofun

/-- Where a new PC ends the instruction it is in bounds: a RET's target is a stack entry, every other
one is at most 0x10FE by itself (R38). -/
theorem State.PcOk.next_pc (hs : s.PcOk) (hf : s.fetchable) {w : Word}
    (bound : s.fetchable → (∀ v, i ≠ .ret v) → w.toNat ≤ 0x10FE)
    (ret : (∃ v, i = .ret v) → w = s.stackEntry (s.sp.val - 1)) : w.toNat ≤ 0x10FE := by
  by_cases hi : ∃ v, i = .ret v
  · have := hs.top
    rw [ret hi]
    omega
  · exact bound hf fun v hv => hi ⟨v, hv⟩

/-- The entries stay in bounds: only a CALL writes one, and it writes the address after itself. -/
theorem State.PcOk.next_stack (hs : s.PcOk) (hf : s.fetchable) (hw : Writes i s u)
    (call : (∃ n, i = .call n) → s.fetchable →
      ∀ k, u.stackEntry k = if k = s.sp.val then s.pc + 2 else s.stackEntry k) :
    ∀ n, n < 16 → (u.stackEntry n).toNat ≤ 0x1000 := by
  intro n hn
  by_cases hi : ∃ m, i = .call m
  · rw [call hi hf]
    split
    · have hf' : s.pc.toNat ≤ 0x0FFE := hf
      rw [BitVec.toNat_add, show (2 : Word).toNat = 2 from rfl]
      omega
    · exact hs.stack n hn
  · rw [State.stackEntry_congr (hw.stack fun m hm => hi ⟨m, hm⟩)]
    exact hs.stack n hn

/-- An instruction keeps the bounds; FX0A, which alone starts a wait, stays at its own address (R284). -/
theorem exec_keeps_pcOk (hs : s.PcOk) (hm : s.mode = .run) (hf : s.fetchable)
    (hi : s.instrAtPc = i) (h : exec i s = .next t) : t.PcOk := by
  obtain ⟨u, hw, he⟩ := exec_cases h
  cases he with
  | fault c eq _ stack =>
    rw [eq]
    exact hs.of_no_wait (by simpa [hw.pc] using hs.pc) stack nofun
  | next w eq _ bound wait ret call =>
    rw [eq]
    refine ⟨hs.next_pc hf bound ret, hs.next_stack (u := u) hf hw call, fun x hx => ?_⟩
    have hx : u.mode = .waitKey x := hx
    rcases hw.mode_cases with ⟨y, rfl, hy⟩ | hsame
    · have hmem : u.mem = s.mem := hw.mem nofun nofun
      have hxy : y = x := Mode.waitKey.inj (hy.symm.trans hx)
      rw [State.fetchable, State.instrAtPc, State.jump_pc, State.jump_mem, hmem, wait ⟨y, rfl⟩,
        ← hxy]
      exact ⟨hf, hi⟩
    · rw [hsame, hm] at hx
      cases hx

/-! ### The fault record (R51) -/

/-- Outside HALTED the record is consistent exactly while it names no fault. -/
theorem State.RecordOk.congr (hs : s.RecordOk) (hsm : s.mode ≠ .halted) (htm : t.mode ≠ .halted)
    (hkind : t.faultKind = s.faultKind) (hinfo : t.faultInfo = s.faultInfo) : t.RecordOk where
  halted := by
    have hnone : s.faultKind = .none := by
      by_contra hne
      exact hsm (hs.halted.2 hne)
    simp [htm, hkind, hnone]
  info h := by
    rw [hinfo]
    exact hs.info (hkind ▸ h)

/-- Taking a fault names it and halts. -/
theorem State.RecordOk.of_raise (s : State) {c : Condition} (hc : c.kind ≠ .none) :
    (s.raise c).RecordOk where
  halted := iff_of_true rfl hc
  info h := absurd h hc

/-- RUN and WAIT_KEY are not HALTED. -/
theorem Mode.ne_halted_of_live {m : Mode} (h : m.live = true) : m ≠ .halted := by
  rintro rfl
  cases h

/-- No event breaks the record: a live mode stays live or ends in STOPPED, and a key wait ends in RUN or
in a fault taken. -/
theorem State.event_keeps_recordOk (hs : s.RecordOk) (e : Event) : (s.event e).RecordOk := by
  cases s.event_effect e with
  | ended _ eq | read _ eq | held _ _ _ _ _ eq => rwa [eq]
  | tick _ _ eq | press _ _ _ eq | release _ _ _ eq => rw [eq]; exact ⟨hs.halted, hs.info⟩
  | quit _ live eq =>
    rw [eq]
    exact hs.congr (Mode.ne_halted_of_live live) nofun rfl rfl
  | wake x k _ wait _ eq =>
    rw [eq]
    rcases State.writePc_cases (s.advance_woken x k) with ⟨w, h, -⟩ | ⟨-, h⟩ <;> rw [h]
    · exact hs.congr (by simp [wait]) nofun rfl rfl
    · exact .of_raise _ nofun

/-- An instruction keeps the record: outside a fault it leaves the record alone and does not halt. -/
theorem exec_keeps_recordOk (hs : s.RecordOk) (hm : s.mode = .run) (h : exec i s = .next t) :
    t.RecordOk := by
  obtain ⟨u, hw, he⟩ := exec_cases h
  cases he with
  | fault c eq kind =>
    rw [eq]
    exact .of_raise u kind
  | next w eq =>
    rw [eq]
    exact hs.congr (by simp [hm]) (hw.mode_ne_halted hm) hw.faultKind hw.faultInfo

/-! ### Call and return (R42, R150, R152) -/

/-- A CALL with an entry free pushes the address after it and jumps. -/
theorem exec_call_next (hf : s.fetchable) (h : s.sp.val < 16) (nnn : Addr12) :
    ∃ t, exec (.call nnn) s = .next t ∧
      t = { s with stack := t.stack, sp := t.sp, pc := addrOperand nnn } ∧
      t.sp.val = s.sp.val + 1 ∧
      ∀ k, t.stackEntry k = if k = s.sp.val then s.pc + 2 else s.stackEntry k := by
  have hf' : s.pc.toNat ≤ 0x0FFE := hf
  have hn : s.nextPc ≤ 0xFFFF := by
    rw [State.nextPc]
    omega
  have hnext : BitVec.ofNat 16 s.nextPc = s.pc + 2 := by
    apply BitVec.eq_of_toNat_eq
    simp [State.nextPc]
  obtain ⟨u, hpush, hu, hsp, hstack⟩ := State.push_eq h hn
  refine ⟨u.jump (addrOperand nnn), ?_, ?_, hsp, fun k => ?_⟩
  · simp only [exec, execCall, hpush]
  · rw [hu]
    rfl
  · rw [State.stackEntry_jump, hstack, hnext]

/-- A RET with an entry in use pops it into PC. -/
theorem exec_ret_next (h : 0 < s.sp.val) (v : Nibble) :
    ∃ t, exec (.ret v) s = .next t ∧
      t = { s with pc := s.stackEntry (s.sp.val - 1), sp := t.sp } ∧ t.sp.val = s.sp.val - 1 := by
  have h0 : ¬ s.sp.val = 0 := by omega
  simp only [exec, execRet, State.pop, if_neg h0]
  exact ⟨_, rfl, rfl, rfl⟩

/-! ### Timers (R46, R295) -/

/-- A tick takes one from a timer, and 0 stays 0. -/
theorem toNat_countDown (b : Byte) : (countDown b).toNat = b.toNat - 1 := by
  unfold countDown
  split
  · have := b.isLt
    rw [BitVec.toNat_sub, show (1 : Byte).toNat = 1 from rfl]
    omega
  · omega

theorem State.event_tick_of_live (h : s.mode.live = true) : s.event .tick = s.tick := if_pos h

/-! ### The reset state (R55, R350) -/

theorem State.reg_resetIn (d : DisplayMode) (x : Nibble) : (State.resetIn d).reg x = 0 := by
  simp [State.reg, State.resetIn, State.reset]

theorem State.key_resetIn (d : DisplayMode) (k : Nibble) : (State.resetIn d).key k = false := by
  simp [State.key, State.resetIn, State.reset]

theorem State.stackEntry_resetIn (d : DisplayMode) (n : Nat) : (State.resetIn d).stackEntry n = 0 := by
  by_cases hn : n < 16
  · rw [State.stackEntry_of_lt _ hn]
    simp [State.resetIn, State.reset]
  · simp [State.stackEntry, Vector.getD, hn]

/-- A blank framebuffer has the mode it was made for and no lit pixel. -/
theorem Framebuffer.blank_spec (d : DisplayMode) :
    (Framebuffer.blank d).displayMode = d ∧ ∀ r c, (Framebuffer.blank d).pixel r c = false := by
  have hmode : (Framebuffer.blank d).displayMode = d := by cases d <;> rfl
  have hclear : (Framebuffer.blank d).clear = Framebuffer.blank d := by rw [Framebuffer.clear, hmode]
  refine ⟨hmode, fun r c => ?_⟩
  rw [← hclear]
  exact (Framebuffer.clear_spec _).2 r c

/-- What an address reads as at reset: the 80 font bytes from `FONT_BASE`, zero elsewhere. -/
theorem resetByte_eq (a : Nat) :
    resetByte a =
      if fontBase ≤ a ∧ a < fontBase + 80 then fontBytes.getD (a - fontBase) 0 else 0 := by
  unfold resetByte
  by_cases h1 : fontBase ≤ a
  · by_cases h2 : a < fontBase + 80
    · rw [if_pos h1, if_pos ⟨h1, h2⟩]
    · rw [if_pos h1, if_neg fun h => h2 h.2]
      have hlen : fontBytes.length ≤ a - fontBase := by
        rw [show fontBytes.length = 80 from rfl]
        omega
      exact List.getD_eq_default _ _ hlen
  · rw [if_neg h1, if_neg fun h => h1 h.1]

/-- A ROM that fits is copied verbatim, and nothing else is touched (R352). -/
theorem State.powerOn_eq {bytes : List Byte} (h : bytes.length ≤ 3584) (d : DisplayMode) :
    State.powerOn (.image bytes) d =
      { State.resetIn d with mem := Memory.setAll [] Config.progBase bytes } := by
  have hn : ¬ bytes.length > Config.maxRom := Nat.not_lt.2 h
  simp only [State.powerOn, State.loadRom, if_neg hn]
  rfl

/-- Memory after the ROM's copy: the ROM from 0x200, the reset content elsewhere. -/
theorem Memory.get_rom {bytes : List Byte} (h : bytes.length ≤ 3584) (a : Nat) :
    Memory.get (Memory.setAll [] Config.progBase bytes) a =
      if 0x200 ≤ a ∧ a < 0x200 + bytes.length then bytes.getD (a - 0x200) 0 else resetByte a := by
  have hfit : Config.progBase + bytes.length ≤ Config.memSize := by
    rw [Config.progBase, Config.memSize]
    omega
  exact Memory.get_setAll hfit rfl a

end Sys2Proof.Machine
end

section
/-! PROOFS. The statements of 10_state.md: the stack, the timers, who writes what, the invariants, and
the state after reset. -/

namespace Sys2Proof.Machine

/-- Settles O54: events and instructions keep the bounds. -/
theorem pcStaysBounded : Obligations.PcStaysBounded := by
  intro s t hs hst
  refine step_induction (P := State.PcOk) ?_ ?_ ?_ ?_ hs hst
  · exact fun _ hu _ => hu.congr rfl rfl rfl rfl
  · exact fun _ hu e => State.event_keeps_pcOk hu e
  · exact fun _ hu hm hf _ hi _ ht => exec_keeps_pcOk hu hm hf hi ht
  · exact fun _ hu _ _ => hu.raise _

/-- Settles O15: the RET pops the entry the CALL pushed, and no entry below it was written. -/
theorem returnUndoesCall : Obligations.ReturnUndoesCall := by
  intro s nnn v hf h
  obtain ⟨t, hcall, ht, hsp, hstack⟩ := exec_call_next hf h nnn
  obtain ⟨t', hret, ht', hsp'⟩ := exec_ret_next (s := t) (by omega) v
  have htop : t.stackEntry (t.sp.val - 1) = s.pc + 2 := by
    rw [hstack, if_pos (by omega)]
  have hdepth : t'.sp = s.sp := Fin.ext (by omega)
  have hsame : t'.stack = t.stack := by rw [ht']
  refine ⟨t, t', hcall, hret, ?_, fun n hn => ?_⟩
  · rw [hsame, ht', htop, hdepth, ht]
  · rw [State.stackEntry_congr hsame, hstack, if_neg (by omega)]

/-- Settles O43, by induction on the number of ticks. -/
theorem ticksReachZero : Obligations.TicksReachZero := by
  intro n
  induction n with
  | zero => exact fun s _ => ⟨s, rfl, rfl, rfl, rfl⟩
  | succ n ih =>
    intro s hs
    obtain ⟨t, hrun, ht, hdt, hst⟩ := ih s.tick hs
    have hfirst : s.event .tick = s.tick := State.event_tick_of_live ((Mode.live_iff _).2 hs)
    refine ⟨t, ?_, ht, ?_, ?_⟩
    · rw [← hrun, ← hfirst]
      rfl
    · rw [hdt, State.tick_dt, toNat_countDown]
      omega
    · rw [hst, State.tick_st, toNat_countDown]
      omega

/-- Settles O50, from how an instruction can end. -/
theorem defaultAdvance : Obligations.DefaultAdvance := by
  intro i s t hf _ ha h ht
  obtain ⟨u, -, he⟩ := exec_cases h
  exact (he.eq_jump_of_not_halted ht).2 hf ha

/-- Settles O51: an instruction's data writes are its own, and its end writes no data. -/
theorem onlyNamedInstructionsWrite : Obligations.OnlyNamedInstructionsWrite := by
  intro i s t h
  obtain ⟨u, hw, he⟩ := exec_cases h
  rw [he.frame]
  refine ⟨hw.index, ?_, ?_, hw.dt, hw.st, ?_, hw.draws, ?_, hw.displayMode, hw.schedule⟩
  · exact fun h1 h2 a => congrArg (·.get a) (hw.mem h1 h2)
  · intro h1 h2
    have hfb := hw.fb h1 h2
    exact ⟨congrArg (·.displayMode) hfb, fun r c => congrArg (·.pixel r c) hfb⟩
  · exact fun h1 h2 => ⟨hw.sp h1 h2, State.stackEntry_congr (hw.stack h1)⟩
  · exact State.key_congr hw.keys

/-- Settles O52, from how an instruction can end. -/
theorem statusOnlyByFaultOrWait : Obligations.StatusOnlyByFaultOrWait := by
  intro i s t h ht
  obtain ⟨u, hw, he⟩ := exec_cases h
  rw [(he.eq_jump_of_not_halted ht).1]
  exact ⟨hw.faultKind, hw.faultInfo, hw.mode⟩

/-- Settles O55: events and instructions keep the record. -/
theorem faultRecordKept : Obligations.FaultRecordKept := by
  intro s t hs hst
  refine step_induction (P := State.RecordOk) ?_ ?_ ?_ ?_ hs hst
  · exact fun _ hu _ => ⟨hu.halted, hu.info⟩
  · exact fun _ hu e => State.event_keeps_recordOk hu e
  · exact fun _ hu hm _ _ _ _ ht => exec_keeps_recordOk hu hm ht
  · exact fun u _ _ _ => .of_raise u nofun

/-- Settles O58: the load writes memory alone, over the reset state. -/
theorem powerOnState : Obligations.PowerOnState := by
  intro bytes d h
  obtain ⟨hmode, hpixel⟩ := Framebuffer.blank_spec d
  refine ⟨_, State.powerOn_eq h d, State.reg_resetIn d, rfl, rfl, rfl, rfl, rfl,
    State.stackEntry_resetIn d, hmode, hpixel, State.key_resetIn d, rfl, rfl, rfl, fun a => ?_⟩
  rw [Memory.get_rom h, resetByte_eq]

/-- Settles O57: at reset memory lists nothing, PC is 0x200, every stack entry is 0, and the mode is RUN
with no fault recorded. -/
theorem resetMeetsInvariants : Obligations.ResetMeetsInvariants := by
  refine ⟨rfl, ⟨by decide, fun n _ => ?_, nofun⟩, ⟨by decide, fun _ => rfl⟩⟩
  have h0 : State.reset.stackEntry n = 0 := State.stackEntry_resetIn .chip8 n
  rw [h0]
  decide

end Sys2Proof.Machine
end

section
/-! SUPPORT. The facts the statements of 20_memory.md share: a fetch that succeeds and one that faults,
the fetch after a store transfer, and the font in the reset content. -/

namespace Sys2Proof.Machine

variable {s : State}

/-- The fetch and the engine step where an instruction can stand (R80, R130). -/
theorem State.fetch_of_fetchable (h : s.fetchable) :
    s.fetch = .ok (bigEndian (s.mem.get s.pc.toNat) (s.mem.get (s.pc.toNat + 1))) ∧
      engineStep s = exec s.instrAtPc s := by
  rw [State.fetch_eq, engineStep_eq, if_pos h, if_pos h]
  exact ⟨rfl, rfl⟩

/-- The fetch and the engine step elsewhere: the fault of the first address at or above 4096 is taken,
and nothing is executed (R80, R132). -/
theorem State.fetch_fault (h : 0x0FFE < s.pc.toNat) {a : Nat} (ha : max s.pc.toNat 0x1000 = a) :
    s.fetch = .error ⟨.addressOutOfRange, a⟩ ∧
      engineStep s = .next (s.raise ⟨.addressOutOfRange, a⟩) := by
  have hf : ¬ s.fetchable := Nat.not_le.2 h
  rw [State.fetch_eq, engineStep_eq, if_neg hf, if_neg hf, ha]
  exact ⟨rfl, rfl⟩

/-- After a store transfer that fits, the next fetch reads the bytes at PC + 2 and PC + 3 as the store
left them (R90). -/
theorem State.store_next_fetch (hm : s.memOk) (hpc : s.pc.toNat ≤ 0x0FFC) (bs : List Byte)
    (h : s.i.toNat + bs.length ≤ 4096) :
    ∃ t, concludeLoop State.advance (s.storeBytes s.base bs) = .next t ∧
      t.fetch = .ok (bigEndian (s.byteAfterStore bs (s.pc.toNat + 2))
        (s.byteAfterStore bs (s.pc.toNat + 3))) := by
  have hf : s.fetchable := Nat.le_trans hpc (by decide)
  obtain ⟨t, hexec, ht, hmem⟩ := s.store_next bs hf h hm
  have hnext : t.pc.toNat = s.pc.toNat + 2 := by
    rw [ht, BitVec.toNat_add, show (2 : Word).toNat = 2 from rfl]
    omega
  have hbyte (a : Nat) : t.mem.get a = s.byteAfterStore bs a := hmem a
  have htf : t.fetchable := by
    rw [State.fetchable, hnext]
    omega
  refine ⟨t, hexec, ?_⟩
  rw [(State.fetch_of_fetchable htf).1, hbyte, hbyte, hnext]

/-- From `FONT_BASE` on, the reset state's memory reads as the font's bytes (R84). -/
theorem State.reset_mem_get_font (k : Nat) :
    State.reset.mem.get (fontBase + k) = fontBytes.getD k 0 := by
  have hreset : State.reset.mem.get (fontBase + k) = resetByte (fontBase + k) := rfl
  rw [hreset, resetByte, if_pos (Nat.le_add_right _ _), Nat.add_sub_cancel_left]

end Sys2Proof.Machine
end

section
/-! PROOFS. The statements of 20_memory.md: the store that the next fetch sees, the fetch itself, and the
font. -/

namespace Sys2Proof.Machine

/-- Settles O33: both instructions are a store transfer from I, of three digits and of `X + 1`
registers. -/
theorem nextFetchSeesStore : Obligations.NextFetchSeesStore := by
  intro s x hm hpc
  refine ⟨fun h => ?_, fun h => ?_⟩
  · exact State.store_next_fetch hm hpc (decimalDigits (s.reg x)) h
  · have hregs : (List.range (x.toNat + 1)).map (fun k => s.reg (BitVec.ofNat 4 k)) =
        (regsUpTo x).map s.reg := by
      rw [regsUpTo, List.map_map, Function.comp_def]
    have hfit : s.i.toNat + ((regsUpTo x).map s.reg).length ≤ 4096 := by
      rw [List.length_map, regsUpTo_length]
      omega
    rw [hregs]
    exact State.store_next_fetch hm hpc _ hfit

/-- Settles O8: at 0x0FFF the low byte is the first address at or above 4096, from 4096 on the high
byte is. -/
theorem fetchReadsTwoBytesOrFaults : Obligations.FetchReadsTwoBytesOrFaults := by
  intro s
  refine ⟨State.fetch_of_fetchable, fun h => ?_, fun h => ?_, s.raise_pc⟩
  · exact State.fetch_fault (by omega) (by omega)
  · exact State.fetch_fault (by omega) (Nat.max_eq_left h)

/-- Settles O28: glyph `d` is the five bytes of the font from `5 d` on, compared with the table byte by
byte. -/
theorem fontGlyphsAtReset : Obligations.FontGlyphsAtReset := by
  unfold Obligations.FontGlyphsAtReset
  simp only [Nat.add_assoc, State.reset_mem_get_font]
  decide

end Sys2Proof.Machine
end

section
/-! SUPPORT. The decoder and the encoder against each other: what a word can decode to (`Decoded`), what an
encoded instruction decodes to, and the fields and keys as numbers; and that no instruction is refused. -/

namespace Sys2Proof

variable {w : Word} {i : Instr} {op n : Nibble} {nn : Byte}

/-! ### A word from its keys and its open fields -/

theorem wordNNN_of_op (h : fieldOp w = op) : wordNNN op (fieldNNN w) = w :=
  h ▸ wordNNN_fields w

theorem wordXNN_of_keys (h : fieldOp w = op) (hk : fieldNN w = nn) : wordXNN op (fieldX w) nn = w :=
  h ▸ hk ▸ wordXNN_fields w

theorem wordXYN_of_keys (h : fieldOp w = op) (hk : fieldN w = n) :
    wordXYN op (fieldX w) (fieldY w) n = w :=
  h ▸ hk ▸ wordXYN_fields w

/-! ### A group's fallback (R107) -/

theorem decodeGroup0_of_not_key (hk : fieldNN w ∉ group0Keys) : decodeGroup0 w = .sys (fieldNNN w) := by
  simp only [group0Keys, List.mem_cons, List.not_mem_nil, or_false, not_or] at hk
  simp only [decodeGroup0, hk, if_false]

theorem decodeGroup8_of_not_key (hk : fieldN w ∉ group8Keys) :
    decodeGroup8 w = .nop8 (fieldX w) (fieldY w) (fieldN w) := by
  simp only [group8Keys, List.mem_cons, List.not_mem_nil, or_false, not_or] at hk
  simp only [decodeGroup8, hk, if_false]

theorem decodeGroupE_of_not_key (hk : fieldNN w ∉ groupEKeys) :
    decodeGroupE w = .nopE (fieldX w) (fieldNN w) := by
  simp only [groupEKeys, List.mem_cons, List.not_mem_nil, or_false, not_or] at hk
  simp only [decodeGroupE, hk, if_false]

theorem decodeGroupF_of_not_key (hk : fieldNN w ∉ groupFKeys) :
    decodeGroupF w = .nopF (fieldX w) (fieldNN w) := by
  simp only [groupFKeys, List.mem_cons, List.not_mem_nil, or_false, not_or] at hk
  simp only [decodeGroupF, hk, if_false]

/-! ### What a word can decode to -/

/-- The answers of the decoder: an instruction that is no no-op and stands for the word, or the no-op of
the word's group, where the second key is none of the group's (R107, R108). -/
inductive Decoded (w : Word) : Instr → Prop where
  | row {i : Instr} (noOp : i.isNoOp = false) (word : encode i = w) : Decoded w i
  | sys (hop : fieldOp w = 0x0) (hk : fieldNN w ∉ group0Keys) : Decoded w (.sys (fieldNNN w))
  | nop8 (hop : fieldOp w = 0x8) (hk : fieldN w ∉ group8Keys) :
      Decoded w (.nop8 (fieldX w) (fieldY w) (fieldN w))
  | nopE (hop : fieldOp w = 0xE) (hk : fieldNN w ∉ groupEKeys) :
      Decoded w (.nopE (fieldX w) (fieldNN w))
  | nopF (hop : fieldOp w = 0xF) (hk : fieldNN w ∉ groupFKeys) :
      Decoded w (.nopF (fieldX w) (fieldNN w))

theorem decodeGroup0_decoded (h : fieldOp w = 0x0) : Decoded w (decodeGroup0 w) := by
  by_cases hk : fieldNN w ∈ group0Keys
  · simp only [group0Keys, List.mem_cons, List.not_mem_nil, or_false] at hk
    rcases hk with hk | hk <;> simp only [decodeGroup0, hk] <;>
      exact .row rfl (wordXNN_of_keys h hk)
  · rw [decodeGroup0_of_not_key hk]
    exact .sys h hk

theorem decodeGroup8_decoded (h : fieldOp w = 0x8) : Decoded w (decodeGroup8 w) := by
  by_cases hk : fieldN w ∈ group8Keys
  · simp only [group8Keys, List.mem_cons, List.not_mem_nil, or_false] at hk
    rcases hk with hk | hk | hk | hk | hk | hk | hk | hk | hk <;> simp only [decodeGroup8, hk] <;>
      exact .row rfl (wordXYN_of_keys h hk)
  · rw [decodeGroup8_of_not_key hk]
    exact .nop8 h hk

theorem decodeGroupE_decoded (h : fieldOp w = 0xE) : Decoded w (decodeGroupE w) := by
  by_cases hk : fieldNN w ∈ groupEKeys
  · simp only [groupEKeys, List.mem_cons, List.not_mem_nil, or_false] at hk
    rcases hk with hk | hk <;> simp only [decodeGroupE, hk] <;>
      exact .row rfl (wordXNN_of_keys h hk)
  · rw [decodeGroupE_of_not_key hk]
    exact .nopE h hk

theorem decodeGroupF_decoded (h : fieldOp w = 0xF) : Decoded w (decodeGroupF w) := by
  by_cases hk : fieldNN w ∈ groupFKeys
  · simp only [groupFKeys, List.mem_cons, List.not_mem_nil, or_false] at hk
    rcases hk with hk | hk | hk | hk | hk | hk | hk | hk | hk <;> simp only [decodeGroupF, hk] <;>
      exact .row rfl (wordXNN_of_keys h hk)
  · rw [decodeGroupF_of_not_key hk]
    exact .nopF h hk

/-- Twelve groups are one row each (R105); the other four are dispatched by their second key. -/
theorem decode_decoded (w : Word) : Decoded w (decode w) := by
  rcases nibble_cases (fieldOp w) with
    h | h | h | h | h | h | h | h | h | h | h | h | h | h | h | h
  · exact decode_op0 h ▸ decodeGroup0_decoded h
  · exact decode_op1 h ▸ .row rfl (wordNNN_of_op h)
  · exact decode_op2 h ▸ .row rfl (wordNNN_of_op h)
  · exact decode_op3 h ▸ .row rfl (wordXNN_of_keys h rfl)
  · exact decode_op4 h ▸ .row rfl (wordXNN_of_keys h rfl)
  · exact decode_op5 h ▸ .row rfl (wordXYN_of_keys h rfl)
  · exact decode_op6 h ▸ .row rfl (wordXNN_of_keys h rfl)
  · exact decode_op7 h ▸ .row rfl (wordXNN_of_keys h rfl)
  · exact decode_op8 h ▸ decodeGroup8_decoded h
  · exact decode_op9 h ▸ .row rfl (wordXYN_of_keys h rfl)
  · exact decode_opA h ▸ .row rfl (wordNNN_of_op h)
  · exact decode_opB h ▸ .row rfl (wordNNN_of_op h)
  · exact decode_opC h ▸ .row rfl (wordXNN_of_keys h rfl)
  · exact decode_opD h ▸ .row rfl (wordXYN_of_keys h rfl)
  · exact decode_opE h ▸ decodeGroupE_decoded h
  · exact decode_opF h ▸ decodeGroupF_decoded h

/-- Only the no-op rows have a check. -/
theorem Instr.wellFormed_of_not_noOp (h : i.isNoOp = false) : i.wellFormed = true := by
  cases i
  case sys | nop8 | nopE | nopF => cases h
  all_goals rfl

theorem Decoded.wellFormed (h : Decoded w i) : i.wellFormed = true := by
  cases h with
  | row noOp word => exact Instr.wellFormed_of_not_noOp noOp
  | sys hop hk => simpa [Instr.wellFormed, fieldNNN_low] using hk
  | nop8 hop hk | nopE hop hk | nopF hop hk => simpa [Instr.wellFormed] using hk

theorem Decoded.encode_eq (h : Decoded w i) : encode i = w := by
  cases h with
  | row noOp word => exact word
  | sys hop hk => exact wordNNN_of_op hop
  | nop8 hop hk => exact wordXYN_of_keys hop rfl
  | nopE hop hk | nopF hop hk => exact wordXNN_of_keys hop rfl

/-- The no-op words, by the two dispatch keys (R107). -/
theorem decode_isNoOp_iff (w : Word) : (decode w).isNoOp = true ↔
    (fieldOp w = 0x0 ∧ fieldNN w ∉ group0Keys) ∨ (fieldOp w = 0x8 ∧ fieldN w ∉ group8Keys) ∨
    (fieldOp w = 0xE ∧ fieldNN w ∉ groupEKeys) ∨ (fieldOp w = 0xF ∧ fieldNN w ∉ groupFKeys) := by
  constructor
  · have hd := decode_decoded w
    intro h
    generalize decode w = i at hd h
    cases hd with
    | row noOp word => rw [noOp] at h; cases h
    | sys hop hk => exact .inl ⟨hop, hk⟩
    | nop8 hop hk => exact .inr (.inl ⟨hop, hk⟩)
    | nopE hop hk => exact .inr (.inr (.inl ⟨hop, hk⟩))
    | nopF hop hk => exact .inr (.inr (.inr ⟨hop, hk⟩))
  · rintro (⟨h, hk⟩ | ⟨h, hk⟩ | ⟨h, hk⟩ | ⟨h, hk⟩)
    · rw [decode_op0 h, decodeGroup0_of_not_key hk]; rfl
    · rw [decode_op8 h, decodeGroup8_of_not_key hk]; rfl
    · rw [decode_opE h, decodeGroupE_of_not_key hk]; rfl
    · rw [decode_opF h, decodeGroupF_of_not_key hk]; rfl

/-! ### Decoding an encoded instruction -/

/-- The second dispatch key of a row's word selects the row, and a well-formed no-op's none. -/
theorem decode_encode (h : i.wellFormed = true) : decode (encode i) = i := by
  cases i
  case sys nnn =>
    have hk : fieldNN (wordNNN 0x0 nnn) ∉ group0Keys := by simpa [Instr.wellFormed] using h
    rw [encode, decode_op0 (fieldOp_wordNNN _ _), decodeGroup0_of_not_key hk, fieldNNN_wordNNN]
  case nop8 x y n =>
    have hk : fieldN (wordXYN 0x8 x y n) ∉ group8Keys := by simpa [Instr.wellFormed] using h
    rw [encode, decode_op8 (fieldOp_wordXYN _ _ _ _), decodeGroup8_of_not_key hk, fieldX_wordXYN,
      fieldY_wordXYN, fieldN_wordXYN]
  case nopE x nn =>
    have hk : fieldNN (wordXNN 0xE x nn) ∉ groupEKeys := by simpa [Instr.wellFormed] using h
    rw [encode, decode_opE (fieldOp_wordXNN _ _ _), decodeGroupE_of_not_key hk, fieldX_wordXNN,
      fieldNN_wordXNN]
  case nopF x nn =>
    have hk : fieldNN (wordXNN 0xF x nn) ∉ groupFKeys := by simpa [Instr.wellFormed] using h
    rw [encode, decode_opF (fieldOp_wordXNN _ _ _), decodeGroupF_of_not_key hk, fieldX_wordXNN,
      fieldNN_wordXNN]
  case cls | ret =>
    rw [encode, decode_op0 (fieldOp_wordXNN _ _ _)]
    simp [decodeGroup0]
  case ldReg | orReg | andReg | xorReg | addReg | subReg | shr | subnReg | shl =>
    rw [encode, decode_op8 (fieldOp_wordXYN _ _ _ _)]
    simp [decodeGroup8]
  case skp | sknp =>
    rw [encode, decode_opE (fieldOp_wordXNN _ _ _)]
    simp [decodeGroupE]
  case ldVxDt | ldVxK | ldDtVx | ldStVx | addI | ldF | ldB | ldMemVx | ldVxMem =>
    rw [encode, decode_opF (fieldOp_wordXNN _ _ _)]
    simp [decodeGroupF]
  all_goals simp [encode, decode]

/-! ### Fields and keys as numbers -/

/-- A field is a quotient and a remainder of the word (R101). -/
theorem toNat_field (w : Word) (start len : Nat) :
    (w.extractLsb' start len).toNat = w.toNat / 2 ^ start % 2 ^ len := by
  rw [BitVec.extractLsb'_toNat, Nat.shiftRight_eq_div_pow]

theorem toNat_lowField (w : Word) (len : Nat) : (w.extractLsb' 0 len).toNat = w.toNat % 2 ^ len := by
  rw [toNat_field, Nat.pow_zero, Nat.div_one]

theorem toNat_fieldOp (w : Word) : (fieldOp w).toNat = w.toNat / 4096 := by
  have hw : w.toNat < 65536 := w.isLt
  have hf : (fieldOp w).toNat = w.toNat / 4096 % 16 := toNat_field w 12 4
  omega

theorem toNat_fieldN (w : Word) : (fieldN w).toNat = w.toNat % 16 := toNat_lowField w 4

theorem toNat_fieldNN (w : Word) : (fieldNN w).toNat = w.toNat % 256 := toNat_lowField w 8

theorem fieldOp_eq_iff (w : Word) (op : Nibble) : fieldOp w = op ↔ w.toNat / 4096 = op.toNat := by
  rw [← BitVec.toNat_inj, toNat_fieldOp]

/-- A low byte is one of a group's keys exactly if its number is. -/
theorem fieldNN_mem_iff (w : Word) (keys : List Byte) :
    fieldNN w ∈ keys ↔ w.toNat % 256 ∈ keys.map BitVec.toNat := by
  rw [← toNat_fieldNN, List.mem_map_of_injective BitVec.toNat_injective]

/-- The low nibbles that group 8 gives no instruction. -/
theorem not_mem_group8Keys_iff (n : Nibble) :
    n ∉ group8Keys ↔ n.toNat ∈ [0x8, 0x9, 0xA, 0xB, 0xC, 0xD, 0xF] := by
  revert n; decide

end Sys2Proof

namespace Sys2Proof.Machine

/-! ### Every end of an instruction is a next state (R108, R320) -/

theorem conclude_answers (s : State) (r : Except Condition State) : ∃ t, conclude s r = .next t := by
  cases r with
  | ok t => exact ⟨t, rfl⟩
  | error c => exact ⟨s.raise c, rfl⟩

theorem State.advance_answers (s : State) : ∃ t, s.advance = .next t := conclude_answers s _

theorem State.skipIf_answers (s : State) (taken : Bool) : ∃ t, s.skipIf taken = .next t :=
  conclude_answers s _

theorem concludeLoop_advance_answers (p : State × Option Condition) :
    ∃ t, concludeLoop State.advance p = .next t := by
  obtain ⟨s, c | c⟩ := p
  · exact s.advance_answers
  · exact ⟨s.raise c, rfl⟩

/-- Each instruction ends in an advance, a skip, a jump, a wait or a fault taken. -/
theorem exec_answers (i : Instr) (s : State) : ∃ t, exec i s = .next t := by
  cases i
  case ret | call =>
    simp only [exec, execRet, execCall]
    split <;> exact ⟨_, rfl⟩
  case drw | addI =>
    simp only [exec, execDrw, execAddI]
    split
    · exact ⟨_, rfl⟩
    · exact State.advance_answers _
  case skp | sknp =>
    simp only [exec, execSkp, execSknp]
    split
    · exact ⟨_, rfl⟩
    · exact State.skipIf_answers _ _
  case jp | ldVxK => exact ⟨_, rfl⟩
  case jpV0 => exact conclude_answers s _
  case seImm | sneImm | seReg | sneReg => exact State.skipIf_answers s _
  case ldB | ldMemVx | ldVxMem => exact concludeLoop_advance_answers _
  all_goals exact State.advance_answers _

theorem engineStep_answers (s : State) : ∃ t, engineStep s = .next t := by
  rw [engineStep_eq]
  split
  · exact exec_answers _ s
  · exact ⟨_, rfl⟩

end Sys2Proof.Machine
end

section
/-! PROOFS. The statements of 30_encoding.md: the decoder and the encoder, the fields, the no-op words,
and that every instruction answers. -/

namespace Sys2Proof.Machine

/-- Settles O1: a row's keys select the row, and the two bytes of its word are the word. -/
theorem decodeInvertsEncode : Obligations.DecodeInvertsEncode := by
  intro i hi
  refine ⟨decode_encode hi, fun rest => ?_⟩
  rw [decodeBytes_encodeBytes, decode_encode hi]

/-- Settles O2, from what a word can decode to. -/
theorem everyWordDecodes : Obligations.EveryWordDecodes :=
  fun w => ⟨(decode_decoded w).wellFormed, (decode_decoded w).encode_eq⟩

/-- Settles O4: the no-op words by their dispatch keys, the keys read as numbers. -/
theorem noOpWordsOfGroups : Obligations.NoOpWordsOfGroups := by
  intro w
  rw [decode_isNoOp_iff]
  simp only [fieldOp_eq_iff, fieldNN_mem_iff, not_mem_group8Keys_iff, toNat_fieldN]
  rfl

/-- Settles O47: every end of an instruction is a next state; in WAIT_KEY, where no instruction runs, the
boundary is one. -/
theorem everyInstructionAnswers : Obligations.EveryInstructionAnswers := by
  refine ⟨exec_answers, fun s hs => ?_⟩
  rw [step_of_live ((Mode.live_iff _).2 hs)]
  split
  · exact engineStep_answers _
  · exact ⟨_, rfl⟩

/-- Settles O3, field by field. -/
theorem fieldsAreBitsOfWord : Obligations.FieldsAreBitsOfWord := fun w =>
  ⟨toNat_fieldOp w, toNat_field w 8 4, toNat_field w 4 4, toNat_fieldN w, toNat_fieldNN w,
    toNat_lowField w 12⟩

/-- Settles O5, by running the decoder on the fourteen words. -/
theorem specWordsDecode : Obligations.SpecWordsDecode := by
  unfold Obligations.SpecWordsDecode
  decide

end Sys2Proof.Machine
end

section
/-! SUPPORT. The facts the statements of 40_engine_cycle.md share: a step past a quiet boundary, the final
modes, the quit event, and what a no-op executes. -/

namespace Sys2Proof.Machine

variable {s : State} {i : Instr}

/-- In RUN, past a quiet boundary, a step is the engine step (R130, R136). -/
theorem step_of_quiet_run (hm : s.mode = .run) (hq : s.quiet) : step s = engineStep s.pass := by
  rw [step_of_live ((Mode.live_iff _).2 (.inl hm)), State.boundary_quiet hq, State.pass_mode, if_pos hm]

/-- In WAIT_KEY a quiet boundary is the whole step (R136). -/
theorem step_of_quiet_wait {x : Nibble} (hm : s.mode = .waitKey x) (hq : s.quiet) :
    step s = .next s.pass := by
  have hrun : s.mode ≠ .run := by simp [hm]
  rw [step_of_live ((Mode.live_iff _).2 (.inr ⟨x, hm⟩)), State.boundary_quiet hq, State.pass_mode,
    if_neg hrun]

theorem step_of_halted (hm : s.mode = .halted) : step s = .fault .halted := by
  rw [step, hm]

theorem step_of_stopped (hm : s.mode = .stopped) : step s = .fault .stopped := by
  rw [step, hm]

/-- In the final modes an event, as every host action but reset, changes nothing (R138). -/
theorem State.event_of_not_live (h : s.mode.live = false) (e : Event) : s.event e = s :=
  State.hostAct_final h (.event e) nofun

theorem State.event_quit_of_live (h : s.mode.live = true) :
    s.event .quit = { s with mode := .stopped } := if_pos h

/-- A no-op is the default advance alone, whatever its operands (R141, R142). -/
theorem exec_of_isNoOp (h : i.isNoOp = true) (s : State) : exec i s = s.advance := by
  cases i
  case sys | nop8 | nopE | nopF => rfl
  all_goals cases h

end Sys2Proof.Machine
end

section
/-! PROOFS. The statements of 40_engine_cycle.md: the step, the final modes, the key wait, the no-ops and
the quit event. -/

namespace Sys2Proof.Machine

/-- Settles O6: the boundary leaves PC and memory alone, so the fetch past it reads the same word. -/
theorem stepRunsDecodedInstruction : Obligations.StepRunsDecodedInstruction := by
  rintro s i hm hq hf rfl
  refine ⟨(decode_decoded _).wellFormed, ?_⟩
  have hpass : s.pass.fetchable := hf
  rw [step_of_quiet_run hm hq]
  exact (State.fetch_of_fetchable hpass).2

/-- Settles O7, by whether the boundary leaves the mode RUN. -/
theorem stepTakesEventsFirst : Obligations.StepTakesEventsFirst := by
  rintro s _ _ hs rfl rfl
  rw [step_of_live ((Mode.live_iff _).2 hs)]
  exact ⟨fun hrun => if_pos hrun, fun hrun => if_neg hrun⟩

/-- Settles O10: neither mode is live. -/
theorem endedRunIsFinal : Obligations.EndedRunIsFinal := by
  intro s
  refine ⟨fun hm => ⟨step_of_halted hm, ?_⟩, fun hm => ⟨step_of_stopped hm, ?_⟩⟩
  all_goals exact State.event_of_not_live (by rw [hm]; rfl)

/-- Settles O11: the quiet boundary is the whole step. -/
theorem keyWaitRunsNoInstruction : Obligations.KeyWaitRunsNoInstruction :=
  fun _ _ hm hq => step_of_quiet_wait hm hq

/-- Settles O18: SYS is group 0's fallback, and every no-op is the default advance. -/
theorem noOpsOnlyAdvance : Obligations.NoOpsOnlyAdvance := by
  refine ⟨fun w hop hE0 hEE => ?_, fun s i hf hi => ?_⟩
  · have hk : fieldNN w ∉ group0Keys := by
      simpa [group0Keys] using And.intro hE0 hEE
    rw [decode_op0 hop, decodeGroup0_of_not_key hk]
  · rw [exec_of_isNoOp hi, State.advance_eq hf]

/-- Settles O45: RUN and WAIT_KEY are the live modes. -/
theorem quitStopsRun : Obligations.QuitStopsRun :=
  fun _ hs => State.event_quit_of_live ((Mode.live_iff _).2 hs)

end Sys2Proof.Machine
end

section
/-! SUPPORT. The facts the statements of 41_control_flow.md share: a row of the opcode map from its dispatch
keys, and the ends of the transfers and skips. -/

namespace Sys2Proof

/-! ### A row from its dispatch keys (R104 to R106) -/

/-- A row that fixes the group alone takes every word of it (R105). -/
theorem encodes_of_op {pattern : Word} {form : Word → Instr}
    (h : ∀ {w}, fieldOp w = fieldOp pattern → decode w = form w) : Encodes 0xF000 pattern form :=
  fun _ hw => h (op_of_mask_F000 hw)

/-- A row that fixes the group and the low byte (R106). -/
theorem encodes_of_op_key8 {pattern : Word} {form : Word → Instr}
    (h : ∀ {w}, fieldOp w = fieldOp pattern → fieldNN w = fieldNN pattern → decode w = form w) :
    Encodes 0xF0FF pattern form :=
  fun _ hw => h (op_of_mask_F0FF hw) (key8_of_mask_F0FF hw)

theorem decode_ret {w : Word} (hop : fieldOp w = 0x0) (hk : fieldNN w = 0xEE) :
    decode w = .ret (fieldX w) := by
  rw [decode_op0 hop, decodeGroup0, if_neg (by rw [hk]; decide), if_pos hk]

end Sys2Proof

namespace Sys2Proof.Machine

variable {s : State}

/-! ### Transfers and skips -/

/-- RET with no entry in use (R42, R150). -/
theorem exec_ret_underflow (h : s.sp.val = 0) (u : Nibble) :
    exec (.ret u) s = .next (s.raise ⟨.stackUnderflow, s.pc.toNat⟩) := by
  simp only [exec, execRet, State.pop, if_pos h]

/-- CALL with all 16 entries in use (R41, R152). -/
theorem exec_call_overflow (h : s.sp.val = 16) (nnn : Addr12) :
    exec (.call nnn) s = .next (s.raise ⟨.stackOverflow, s.pc.toNat⟩) := by
  simp only [exec, execCall, State.push_overflow h]

/-- A skip whose test decides `p`, where an instruction can stand (R153). -/
theorem State.skipIf_of_iff (h : s.fetchable) {b : Bool} {p : Prop} [Decidable p]
    (hb : b = true ↔ p) :
    s.skipIf b = .next { s with pc := if p then s.pc + 4 else s.pc + 2 } := by
  simp only [State.skipIf_eq h, hb]

/-- A 12-bit and an 8-bit value add up to at most 0x10FE (R38, R158). -/
theorem State.offsetTarget_le (s : State) (nnn : Addr12) : s.offsetTarget nnn ≤ 0x10FE := by
  have hn := nnn.isLt
  have hv := (s.reg 0x0).isLt
  rw [State.offsetTarget]
  omega

/-- JP V0, NNN never fails the check of the PC write. -/
theorem exec_jpV0_eq (s : State) (nnn : Addr12) :
    exec (.jpV0 nnn) s = .next { s with pc := BitVec.ofNat 16 (s.offsetTarget nnn) } := by
  have hle := s.offsetTarget_le nnn
  simp only [exec, execJpV0, State.writePc_eq (Nat.le_trans hle (by decide)), conclude]

end Sys2Proof.Machine
end

section
/-! PROOFS. The statements of 41_control_flow.md: return, jump, call, the register skips and the jump with
offset. -/

namespace Sys2Proof.Machine

/-- Settles O12, by whether an entry is in use. -/
theorem returnPopsOrUnderflows : Obligations.ReturnPopsOrUnderflows := by
  refine ⟨encodes_of_op_key8 decode_ret, fun s u => ⟨fun h => ?_, fun h => exec_ret_underflow h u⟩⟩
  obtain ⟨t, hret, ht, hsp⟩ := exec_ret_next h u
  have hpc : t.pc = s.stackEntry (s.sp.val - 1) := by rw [ht]
  exact ⟨t, hret, hpc ▸ ht, hpc, hsp⟩

/-- Settles O13: the jump has no check to fail. -/
theorem jumpWritesTarget : Obligations.JumpWritesTarget :=
  ⟨encodes_of_op decode_op1, fun _ _ => rfl⟩

/-- Settles O14, by whether an entry is free. -/
theorem callPushesOrOverflows : Obligations.CallPushesOrOverflows :=
  ⟨encodes_of_op decode_op2, fun _ nnn hf =>
    ⟨fun h => exec_call_next hf h nnn, fun h => exec_call_overflow h nnn⟩⟩

/-- Settles O16: each of the four is a skip, and its test decides its comparison. -/
theorem skipsCompareRegisters : Obligations.SkipsCompareRegisters := by
  refine ⟨encodes_of_op decode_op3, encodes_of_op decode_op4, encodes_of_op decode_op5,
    encodes_of_op decode_op9, fun s x y u nn hf => ⟨?_, ?_, ?_, ?_⟩⟩
  · exact State.skipIf_of_iff hf beq_iff_eq
  · exact State.skipIf_of_iff hf bne_iff_ne
  · exact State.skipIf_of_iff hf beq_iff_eq
  · exact State.skipIf_of_iff hf bne_iff_ne

/-- Settles O17: the sum is at most 0x10FE, so the 16-bit PC holds it unreduced. -/
theorem jumpWithOffsetAddsV0 : Obligations.JumpWithOffsetAddsV0 := by
  refine ⟨encodes_of_op decode_opB, fun s nnn => ?_⟩
  have hle := s.offsetTarget_le nnn
  have hpc : (BitVec.ofNat 16 (s.offsetTarget nnn)).toNat = s.offsetTarget nnn :=
    (BitVec.toNat_ofNat _ _).trans (Nat.mod_eq_of_lt (by omega))
  exact ⟨_, exec_jpV0_eq s nnn, rfl, hpc, hpc.trans_le hle⟩

end Sys2Proof.Machine
end

section
/-! SUPPORT. The facts the statements of 42_alu.md share: a row of group 8 from its encoding, the results and
flags of the ALU as numbers, and a write of a register, with or without a flag, as those statements read it. -/

namespace Sys2Proof

/-- A row that fixes the group and the low nibble, from the encoding of its form (R106): the word is the
form's, so decoding it gives the form back. -/
theorem encodes_of_encode_key4 {pattern : Word} {form : Word → Instr}
    (hwf : ∀ w, (form w).wellFormed = true := by intro _; rfl)
    (henc : ∀ w, encode (form w) =
      wordXYN (fieldOp pattern) (fieldX w) (fieldY w) (fieldN pattern) := by intro _; rfl) :
    Encodes 0xF00F pattern form := by
  intro w hw
  have hword : encode (form w) = w := by
    rw [henc, ← op_of_mask_F00F hw, ← key4_of_mask_F00F hw, wordXYN_fields]
  calc decode w = decode (encode (form w)) := by rw [hword]
    _ = form w := decode_encode (hwf w)

end Sys2Proof

namespace Sys2Proof.Machine

variable {s : State}

/-! ### Results and flags as numbers (R186 to R191) -/

theorem toNat_sub_byte (a b : Byte) : (a - b).toNat = (a.toNat + 256 - b.toNat) % 256 := by
  have hb := b.isLt
  rw [BitVec.toNat_sub]
  omega

theorem toNat_halved (a : Byte) : (a >>> 1).toNat = a.toNat / 2 := by
  rw [BitVec.toNat_ushiftRight, Nat.shiftRight_one]

theorem toNat_doubled (a : Byte) : (a <<< 1).toNat = a.toNat * 2 % 256 := by
  rw [BitVec.toNat_shiftLeft, Nat.shiftLeft_eq]

theorem carryOut_iff (a b : Byte) : carryOut a b = true ↔ a.toNat + b.toNat > 255 := decide_eq_true_iff

theorem noBorrow_iff (a b : Byte) : noBorrow a b = true ↔ a.toNat ≥ b.toNat := decide_eq_true_iff

theorem toNat_shiftedOutRight (a : Byte) : (shiftedOutRight a).toNat = a.toNat % 2 := by
  rw [shiftedOutRight, BitVec.getLsbD, Nat.toNat_testBit, Nat.pow_zero, Nat.div_one]

theorem toNat_shiftedOutLeft (a : Byte) : (shiftedOutLeft a).toNat = a.toNat / 128 := by
  have ha := a.isLt
  rw [shiftedOutLeft, BitVec.getLsbD, Nat.toNat_testBit]
  omega

/-! ### A register write, then the advance -/

/-- A register written with a byte whose bits are known (R183 to R185). -/
theorem State.advance_setReg_bits (h : s.fetchable) (x : Nibble) {b : Byte} {bit : Nat → Bool}
    (hb : ∀ j, b.getLsbD j = bit j) :
    ∃ t, (s.setReg x b).advance = .next t ∧ t = { s with v := t.v, pc := s.pc + 2 } ∧
      SameRegsBut [x] s t ∧ ∀ j, (t.reg x).getLsbD j = bit j := by
  obtain ⟨t, hnext, hframe, hx, hregs⟩ := State.advance_setReg h x b
  exact ⟨t, hnext, hframe, hregs, hx ▸ hb⟩

/-- A result of known value, then a flag that decides `p` (R186, R187, R189). -/
theorem State.advance_setRegFlag_of_iff (h : s.fetchable) (x : Nibble) {r : Byte} {f : Bool} {n : Nat}
    {p : Prop} [Decidable p] (hr : r.toNat = n) (hf : f = true ↔ p) :
    ∃ t, (s.setRegFlag x r f).advance = .next t ∧ t = { s with v := t.v, pc := s.pc + 2 } ∧
      SameRegsBut [x, 0xF] s t ∧ (x ≠ 0xF → (t.reg x).toNat = n) ∧
      t.reg 0xF = if p then 1 else 0 := by
  obtain ⟨t, hnext, hframe, hregs, hx, hflag⟩ := State.advance_setRegFlag h x r f
  simp only [hf] at hflag
  exact ⟨t, hnext, hframe, hregs, fun hne => hx hne ▸ hr, hflag⟩

/-- A result and a flag of known values (R188, R190). -/
theorem State.advance_setRegFlag_toNat (h : s.fetchable) (x : Nibble) {r : Byte} {f : Bool} {n m : Nat}
    (hr : r.toNat = n) (hf : f.toNat = m) :
    ∃ t, (s.setRegFlag x r f).advance = .next t ∧ t = { s with v := t.v, pc := s.pc + 2 } ∧
      SameRegsBut [x, 0xF] s t ∧ (x ≠ 0xF → (t.reg x).toNat = n) ∧ (t.reg 0xF).toNat = m := by
  obtain ⟨t, hnext, hframe, hregs, hx, hflag⟩ := State.advance_setRegFlag h x r f
  have hm : (t.reg 0xF).toNat = m := by
    rw [hflag, ← hf]
    cases f <;> rfl
  exact ⟨t, hnext, hframe, hregs, fun hne => hx hne ▸ hr, hm⟩

end Sys2Proof.Machine
end

section
/-! PROOFS. The statements of 42_alu.md: register loads, arithmetic and logic. -/

namespace Sys2Proof.Machine

/-- Settles O19: each load is one register write. -/
theorem loadsWriteRegister : Obligations.LoadsWriteRegister :=
  ⟨encodes_of_op decode_op6, encodes_of_encode_key4, fun s x y nn hf =>
    ⟨State.advance_setReg hf x nn, State.advance_setReg hf x (s.reg y)⟩⟩

/-- Settles O20: addition of bytes is addition modulo 256. -/
theorem addImmediateWraps : Obligations.AddImmediateWraps := by
  refine ⟨encodes_of_op decode_op7, fun s x nn hf => ?_⟩
  obtain ⟨t, hnext, hframe, hx, hregs⟩ := State.advance_setReg hf x (s.reg x + nn)
  exact ⟨t, hnext, hframe, hx ▸ BitVec.toNat_add _ _, hregs⟩

/-- Settles O21: each is one register write, of a byte known bit by bit. -/
theorem logicLeavesFlag : Obligations.LogicLeavesFlag := by
  refine ⟨encodes_of_encode_key4, encodes_of_encode_key4, encodes_of_encode_key4,
    fun s x y hf => ⟨?_, ?_, ?_⟩⟩
  · exact State.advance_setReg_bits hf x fun _ => BitVec.getLsbD_or
  · exact State.advance_setReg_bits hf x fun _ => BitVec.getLsbD_and
  · exact State.advance_setReg_bits hf x fun _ => BitVec.getLsbD_xor

/-- Settles O22: the flag decides whether the sum exceeds 255. -/
theorem addSetsCarry : Obligations.AddSetsCarry :=
  ⟨encodes_of_encode_key4, fun _ x _ hf =>
    State.advance_setRegFlag_of_iff hf x (BitVec.toNat_add _ _) (carryOut_iff _ _)⟩

/-- Settles O23: the flag decides whether the minuend is at least the subtrahend. -/
theorem subtractSetsNoBorrow : Obligations.SubtractSetsNoBorrow := by
  refine ⟨encodes_of_encode_key4, encodes_of_encode_key4, fun s x y hf => ⟨?_, ?_⟩⟩
  · exact State.advance_setRegFlag_of_iff hf x (toNat_sub_byte _ _) (noBorrow_iff _ _)
  · exact State.advance_setRegFlag_of_iff hf x (toNat_sub_byte _ _) (noBorrow_iff _ _)

/-- Settles O24: the flag is the bit the halving or the doubling loses. -/
theorem shiftsWorkInPlace : Obligations.ShiftsWorkInPlace := by
  refine ⟨encodes_of_encode_key4, encodes_of_encode_key4, fun s x y hf => ⟨?_, ?_⟩⟩
  · exact State.advance_setRegFlag_toNat hf x (toNat_halved _) (toNat_shiftedOutRight _)
  · exact State.advance_setRegFlag_toNat hf x (toNat_doubled _) (toNat_shiftedOutLeft _)

/-- Settles O25: the draw counted, it is one register write, of a byte under the mask NN. -/
theorem randomIsMasked : Obligations.RandomIsMasked := by
  refine ⟨encodes_of_op decode_opC, fun s x nn hf => ?_⟩
  have hdrawn : State.fetchable { s with draws := s.draws + 1 } := hf
  obtain ⟨t, hnext, hframe, hx, hregs⟩ := State.advance_setReg hdrawn x (Config.rand s.draws &&& nn)
  refine ⟨t, Config.rand s.draws, hnext, hframe, hx, rfl, hregs, fun j hj => ?_⟩
  rw [hx, BitVec.getLsbD_and, hj, Bool.and_false]

end Sys2Proof.Machine
end

section
/-! SUPPORT. The facts the statements of 43_index_memory.md share: a row of group F from its encoding, the
values I takes, the digits of FX33, and the transfers at I read byte by byte and register by register. -/

namespace Sys2Proof

/-- A row that fixes the group and the low byte, from the encoding of its form (R106): the word is the
form's, so decoding it gives the form back. -/
theorem encodes_of_encode_key8 {pattern : Word} {form : Word → Instr}
    (hwf : ∀ w, (form w).wellFormed = true := by intro _; rfl)
    (henc : ∀ w, encode (form w) =
      wordXNN (fieldOp pattern) (fieldX w) (fieldNN pattern) := by intro _; rfl) :
    Encodes 0xF0FF pattern form := by
  refine encodes_of_op_key8 fun {w} hop hk => ?_
  have hword : encode (form w) = w := (henc w).trans (wordXNN_of_keys hop hk)
  calc decode w = decode (encode (form w)) := by rw [hword]
    _ = form w := decode_encode (hwf w)

end Sys2Proof

namespace Sys2Proof.Machine

variable {s t : State}

/-! ### Values of I and of the digits -/

/-- Every glyph's address fits I (R222). -/
theorem toNat_glyphAddress (b : Byte) :
    (BitVec.ofNat 16 (glyphAddress (glyphDigit b))).toNat = fontBase + 5 * (b.toNat % 16) := by
  rw [BitVec.toNat_ofNat, glyphAddress, glyphDigit, fontBase]
  omega

/-- A write of I of a value of 16 bits succeeds (R35). -/
theorem State.writeI_eq {n : Nat} (h : n ≤ 0xFFFF) : s.writeI n = .ok { s with i := BitVec.ofNat 16 n } :=
  if_pos h

/-- A write of I of any other value reports it (R35). -/
theorem State.writeI_error {n : Nat} (h : 0xFFFF < n) : s.writeI n = .error ⟨.valueOutOfRange, n⟩ :=
  if_neg (Nat.not_le.2 h)

/-- Hundreds, tens and ones, in the order they are stored (R223). -/
theorem toNat_decimalDigits (b : Byte) :
    ((decimalDigits b).getD 0 0).toNat = b.toNat / 100 ∧
    ((decimalDigits b).getD 1 0).toNat = b.toNat / 10 % 10 ∧
    ((decimalDigits b).getD 2 0).toNat = b.toNat % 10 := by
  have hb := b.isLt
  have hdigit {n : Nat} (hn : n < 256) : (BitVec.ofNat 8 n).toNat = n :=
    (BitVec.toNat_ofNat n 8).trans (Nat.mod_eq_of_lt hn)
  exact ⟨hdigit (by omega), hdigit (by omega), hdigit (by omega)⟩

/-! ### Stores at I (R77, R223, R224) -/

/-- Memory that differs by `n` bytes from `lo` upward, byte by byte. -/
theorem mem_of_window {lo n : Nat} {bs : List Byte}
    (h : ∀ a, t.mem.get a = if lo ≤ a ∧ a < lo + n then bs.getD (a - lo) 0 else s.mem.get a) :
    (∀ k, k < n → t.mem.get (lo + k) = bs.getD k 0) ∧ SameMemOutside lo n s t := by
  refine ⟨fun k hk => ?_, fun a ha => ?_⟩
  · rw [h, if_pos (by omega), Nat.add_sub_cancel_left]
  · rw [h, if_neg (by omega)]

/-- A store transfer that fits writes all its bytes at I upward, and no other byte. -/
theorem State.store_next_bytes (bs : List Byte) (hm : s.memOk) (hf : s.fetchable)
    (h : s.i.toNat + bs.length ≤ 4096) :
    ∃ t, concludeLoop State.advance (s.storeBytes s.base bs) = .next t ∧
      t = { s with mem := t.mem, pc := s.pc + 2 } ∧
      (∀ k, k < bs.length → t.mem.get (s.i.toNat + k) = bs.getD k 0) ∧
      SameMemOutside s.i.toNat bs.length s t := by
  obtain ⟨t, hnext, hframe, hmem⟩ := s.store_next bs hf h hm
  exact ⟨t, hnext, hframe, mem_of_window hmem⟩

/-- A store transfer that does not fit writes the bytes below 4096, and no other byte. -/
theorem State.store_fault_bytes (bs : List Byte) (hm : s.memOk) (h : 4096 < s.i.toNat + bs.length)
    (hne : bs ≠ []) :
    ∃ t, concludeLoop State.advance (s.storeBytes s.base bs) = .next t ∧
      t = State.raise { s with mem := t.mem } ⟨.addressOutOfRange, max s.i.toNat 4096⟩ ∧
      (∀ k, s.i.toNat + k < 4096 → t.mem.get (s.i.toNat + k) = bs.getD k 0) ∧
      SameMemOutside s.i.toNat (4096 - s.i.toNat) s t := by
  obtain ⟨t, hnext, hframe, hmem⟩ := s.store_fault bs h hne hm
  obtain ⟨hbytes, hout⟩ := mem_of_window hmem
  exact ⟨t, hnext, hframe, fun k hk => hbytes k (by omega), hout⟩

theorem length_dumped (s : State) (x : Nibble) : ((regsUpTo x).map s.reg).length = x.toNat + 1 := by
  rw [List.length_map, regsUpTo_length]

/-- LD [I], Vx where all its bytes fit (R224). -/
theorem exec_dump_next (x : Nibble) (hm : s.memOk) (hf : s.fetchable) (h : s.i.toNat + x.toNat < 4096) :
    ∃ t, exec (.ldMemVx x) s = .next t ∧ t = { s with mem := t.mem, pc := s.pc + 2 } ∧
      (∀ k : Nibble, k.toNat ≤ x.toNat → t.mem.get (s.i.toNat + k.toNat) = s.reg k) ∧
      SameMemOutside s.i.toNat (x.toNat + 1) s t := by
  have hlen := length_dumped s x
  obtain ⟨t, hnext, hframe, hbytes, hout⟩ :=
    State.store_next_bytes ((regsUpTo x).map s.reg) hm hf (by omega)
  refine ⟨t, hnext, hframe, fun k hk => ?_, hlen ▸ hout⟩
  rw [hbytes k.toNat (by omega), regsUpTo_getD s hk]

/-! ### Loads at I (R77, R225) -/

theorem concludeLoop_of_none {k : State → Result} {p : State × Option Condition} (h : p.2 = none) :
    concludeLoop k p = k p.1 := by
  obtain ⟨u, c⟩ := p
  cases h
  rfl

theorem concludeLoop_of_some {k : State → Result} {p : State × Option Condition} {c : Condition}
    (h : p.2 = some c) : concludeLoop k p = .next (p.1.raise c) := by
  obtain ⟨u, c'⟩ := p
  cases h
  rfl

/-- LD Vx, [I] where all its bytes lie in memory (R225). -/
theorem exec_load_next (x : Nibble) (hf : s.fetchable) (h : s.i.toNat + x.toNat < 4096) :
    ∃ t, exec (.ldVxMem x) s = .next t ∧ t = { s with v := t.v, pc := s.pc + 2 } ∧
      ∀ k : Nibble, t.reg k =
        if k.toNat ≤ x.toNat then s.mem.get (s.i.toNat + k.toNat) else s.reg k := by
  have hnone : (s.loadRegs s.base (regsUpTo x)).2 = none := by
    rw [State.loadRegs_fault, regsUpTo_length, State.base, if_pos (.inl (by omega))]
  have hframe := s.loadRegs_frame s.base (regsUpTo x)
  have hloaded : (s.loadRegs s.base (regsUpTo x)).1.fetchable := by
    rw [hframe]
    exact hf
  refine ⟨_, (concludeLoop_of_none hnone).trans (State.advance_eq hloaded), ?_, fun k => ?_⟩
  · rw [hframe]
  · rw [State.reg_mk, State.loadRegs_upTo, State.base]
    have hbelow : (k.toNat ≤ x.toNat ∧ s.i.toNat + k.toNat < 4096) ↔ k.toNat ≤ x.toNat := by omega
    simp only [hbelow]

/-- LD Vx, [I] that reaches address 4096 (R225). -/
theorem exec_load_fault (x : Nibble) (h : 4096 ≤ s.i.toNat + x.toNat) :
    ∃ t, exec (.ldVxMem x) s = .next t ∧
      t = State.raise { s with v := t.v } ⟨.addressOutOfRange, max s.i.toNat 4096⟩ ∧
      ∀ k : Nibble, t.reg k =
        if k.toNat ≤ x.toNat ∧ s.i.toNat + k.toNat < 4096 then s.mem.get (s.i.toNat + k.toNat)
        else s.reg k := by
  have hover : ¬ (s.base + (x.toNat + 1) ≤ 4096 ∨ regsUpTo x = []) := by
    rw [State.base, not_or]
    exact ⟨by omega, regsUpTo_ne_nil x⟩
  have hsome : (s.loadRegs s.base (regsUpTo x)).2 = some ⟨.addressOutOfRange, max s.i.toNat 4096⟩ := by
    rw [State.loadRegs_fault, regsUpTo_length, if_neg hover, State.base]
  refine ⟨_, concludeLoop_of_some hsome, ?_, fun k => s.loadRegs_upTo s.base x k⟩
  rw [State.raise_v, ← State.loadRegs_frame]

end Sys2Proof.Machine
end

section
/-! PROOFS. The statements of 43_index_memory.md: the index loads, ADD I, and the transfers at I. -/

namespace Sys2Proof.Machine

/-- Settles O29: a store transfer of three digits. -/
theorem bcdStoresDigits : Obligations.BcdStoresDigits := by
  refine ⟨encodes_of_encode_key8, fun s x hm hf => ?_⟩
  obtain ⟨h100, h10, h1⟩ := toNat_decimalDigits (s.reg x)
  have hlen : (decimalDigits (s.reg x)).length = 3 := rfl
  refine ⟨fun h => ?_, fun h => ?_⟩
  · obtain ⟨t, hnext, hframe, hbytes, hout⟩ := State.store_next_bytes (decimalDigits (s.reg x)) hm hf h
    refine ⟨t, hnext, hframe, ?_, ?_, ?_, hout⟩
    · exact hbytes 0 (by omega) ▸ h100
    · exact hbytes 1 (by omega) ▸ h10
    · exact hbytes 2 (by omega) ▸ h1
  · obtain ⟨t, hnext, hframe, hbytes, hout⟩ :=
      State.store_fault_bytes (decimalDigits (s.reg x)) hm (by omega) (List.cons_ne_nil _ _)
    exact ⟨t, hnext, hframe, fun hlt => hbytes 0 hlt ▸ h100, fun hlt => hbytes 1 hlt ▸ h10, hout⟩

/-- Settles O30: a store transfer of `X + 1` registers. -/
theorem dumpStoresRegisters : Obligations.DumpStoresRegisters := by
  refine ⟨encodes_of_encode_key8, fun s x hm hf => ⟨exec_dump_next x hm hf, fun h => ?_⟩⟩
  have hlen := length_dumped s x
  obtain ⟨t, hnext, hframe, hbytes, hout⟩ :=
    State.store_fault_bytes ((regsUpTo x).map s.reg) hm (by omega)
      (List.map_eq_nil_iff.not.2 (regsUpTo_ne_nil x))
  exact ⟨t, hnext, hframe, fun k hk hlt => (hbytes k.toNat hlt).trans (regsUpTo_getD s hk), hout⟩

/-- Settles O31, by whether the load reaches address 4096. -/
theorem loadFillsRegisters : Obligations.LoadFillsRegisters :=
  ⟨encodes_of_encode_key8, fun _ x hf => ⟨exec_load_next x hf, exec_load_fault x⟩⟩

/-- Settles O32: the dump keeps I, so the load reads back the bytes the dump stored. -/
theorem loadUndoesDump : Obligations.LoadUndoesDump := by
  intro s x hm hpc h
  obtain ⟨t, hdump, ht, hbytes, hout⟩ := exec_dump_next x hm (Nat.le_trans hpc (by decide)) h
  have hi : t.i = s.i := by rw [ht]
  have hreg (k : Nibble) : t.reg k = s.reg k := by rw [ht]; rfl
  have hpct : t.pc = s.pc + 2 := by rw [ht]
  have hft : t.fetchable := by
    rw [State.fetchable, hpct, BitVec.toNat_add, show (2 : Word).toNat = 2 from rfl]
    omega
  obtain ⟨t', hload, ht', hloaded⟩ := exec_load_next x hft (hi ▸ h)
  have hmem : t'.mem = t.mem := by rw [ht']
  refine ⟨t, t', hdump, hload, fun k => ?_, ?_, ?_, fun a ha => hmem ▸ hout a ha⟩
  · rw [hloaded]
    split
    case isTrue hk => rw [hi, hbytes k hk]
    case isFalse => exact hreg k
  · rw [ht', ht]
  · rw [ht', hpct, BitVec.add_assoc]
    rfl

/-- Settles O26: each is a write of I, then the default advance. -/
theorem indexLoads : Obligations.IndexLoads := by
  refine ⟨encodes_of_op decode_opA, encodes_of_encode_key8, fun s nnn x hf => ⟨?_, ?_⟩⟩
  · exact State.advance_eq (s := { s with i := addrOperand nnn }) hf
  · exact ⟨_, State.advance_eq (s := { s with i := BitVec.ofNat 16 _ }) hf, rfl,
      toNat_glyphAddress (s.reg x)⟩

/-- Settles O27, by whether the sum fits I. -/
theorem addIndexOrValueFault : Obligations.AddIndexOrValueFault := by
  refine ⟨encodes_of_encode_key8, fun s x hf => ⟨fun h => ?_, fun h => ?_⟩⟩
  · have hsum : s.indexSum x ≤ 0xFFFF := h
    have hnext : exec (.addI x) s =
        .next { s with i := BitVec.ofNat 16 (s.indexSum x), pc := s.pc + 2 } := by
      rw [exec, execAddI, State.writeI_eq hsum]
      exact State.advance_eq (s := { s with i := BitVec.ofNat 16 (s.indexSum x) }) hf
    exact ⟨_, hnext, rfl, (BitVec.toNat_ofNat _ _).trans (Nat.mod_eq_of_lt (Nat.lt_succ_of_le hsum))⟩
  · have hsum : 0xFFFF < s.indexSum x := h
    rw [exec, execAddI, State.writeI_error hsum, State.indexSum]

end Sys2Proof.Machine
end

section
/-! SUPPORT. The facts the statements of 44_display.md share: one call of the compositor read by its pixels
alone, and the two ends of DRW. -/

namespace Sys2Proof.Machine

variable {s : State} {n : Nibble}

/-! ### One call of the compositor (R251) -/

/-- Drawing XORs every pixel with the sprite's bit on it (R256). -/
theorem Framebuffer.pixel_attachSprite (fb : Framebuffer) (bytes : List Byte) (x y r c : Nat) :
    (fb.attachSprite bytes x y).1.pixel r c =
      (fb.pixel r c ^^ spriteCovers fb.displayMode.width fb.displayMode.height bytes x y r c) :=
  (fb.attachSprite_spec bytes x y).2.1 r c

theorem Framebuffer.displayMode_attachSprite (fb : Framebuffer) (bytes : List Byte) (x y : Nat) :
    (fb.attachSprite bytes x y).1.displayMode = fb.displayMode :=
  (fb.attachSprite_spec bytes x y).1

/-- A collision is a pixel that went from 1 to 0 (R257): a lit pixel goes off exactly where the sprite
has a bit on it. -/
theorem Framebuffer.collides_iff (fb : Framebuffer) (bytes : List Byte) (x y : Nat) :
    (fb.attachSprite bytes x y).2 = true ↔
      ∃ r c, fb.pixel r c = true ∧ (fb.attachSprite bytes x y).1.pixel r c = false := by
  obtain ⟨-, -, hcollided⟩ := fb.attachSprite_spec bytes x y
  rw [hcollided]
  refine exists_congr fun r => exists_congr fun c => ?_
  rw [Framebuffer.pixel_attachSprite, and_comm]
  exact and_congr_right fun hlit => by rw [hlit, Bool.true_xor, Bool.not_eq_false']

/-- The second of two identical calls undoes the first (R260). -/
theorem Framebuffer.pixel_attachSprite_twice (fb : Framebuffer) (bytes : List Byte) (x y r c : Nat) :
    ((fb.attachSprite bytes x y).1.attachSprite bytes x y).1.pixel r c = fb.pixel r c := by
  rw [Framebuffer.pixel_attachSprite, Framebuffer.displayMode_attachSprite,
    Framebuffer.pixel_attachSprite, Bool.xor_assoc, Bool.xor_self, Bool.xor_false]

/-- A sprite has no bit outside its rows and its 8 columns from the wrapped origin (R253, R254). -/
theorem spriteCovers_outside {W H x y r c : Nat} {bytes : List Byte}
    (h : r < y % H ∨ y % H + bytes.length ≤ r ∨ c < x % W ∨ x % W + 8 ≤ c) :
    spriteCovers W H bytes x y r c = false := by
  rw [spriteCovers]
  by_cases hrow : y % H + bytes.length ≤ r
  · have hbyte : bytes.getD (r - y % H) 0 = 0#8 := List.getD_eq_default _ _ (by omega)
    rw [hbyte, BitVec.getLsbD_zero, Bool.and_false]
  · have hbox : ¬ (r < H ∧ c < W ∧ y % H ≤ r ∧ x % W ≤ c ∧ c < x % W + 8) := by omega
    rw [decide_eq_false hbox, Bool.false_and]

/-! ### The two ends of DRW (R252) -/

/-- The bytes of the sprite at I. -/
def State.spriteBytes (s : State) (n : Nibble) : List Byte :=
  (List.range n.toNat).map fun k => s.mem.get (s.i.toNat + k)

/-- What DRW's call of the compositor answers: the framebuffer, and whether it collided. -/
def State.drawn (s : State) (x y n : Nibble) : Framebuffer × Bool :=
  s.fb.attachSprite (s.spriteBytes n) (s.regNat x) (s.regNat y)

theorem State.readBytes_sprite (h : n = 0 ∨ s.i.toNat + n.toNat ≤ 4096) :
    s.readBytes s.base n.toNat = .ok (s.spriteBytes n) := by
  have hfits : s.base + n.toNat ≤ 4096 ∨ n.toNat = 0 := h.symm.imp_right (congrArg BitVec.toNat)
  rw [State.readBytes_eq, if_pos hfits]
  rfl

/-- DRW of a sprite that lies in memory: the picture and VF are the compositor's answer. -/
theorem exec_drw_next (hf : s.fetchable) (h : n = 0 ∨ s.i.toNat + n.toNat ≤ 4096) (x y : Nibble) :
    ∃ t, exec (.drw x y n) s = .next t ∧
      t = { s with fb := (s.drawn x y n).1, v := t.v, pc := s.pc + 2 } ∧
      SameRegsBut [0xF] s t ∧ t.reg 0xF = flagByte (s.drawn x y n).2 := by
  have hdrawn : State.fetchable { s with fb := (s.drawn x y n).1 } := hf
  obtain ⟨t, hnext, hframe, hflag, hregs⟩ :=
    State.advance_setReg hdrawn flagReg (flagByte (s.drawn x y n).2)
  refine ⟨t, ?_, hframe, hregs, hflag⟩
  rw [exec, execDrw, State.readBytes_sprite h]
  exact hnext

/-- DRW of a sprite that reaches address 4096. -/
theorem exec_drw_fault (hn : n ≠ 0) (h : 4096 < s.i.toNat + n.toNat) (x y : Nibble) :
    exec (.drw x y n) s = .next (s.raise ⟨.addressOutOfRange, max s.i.toNat 4096⟩) := by
  have hover : ¬ (s.base + n.toNat ≤ 4096 ∨ n.toNat = 0) :=
    not_or.2 ⟨Nat.not_le.2 h, fun h0 => hn (BitVec.eq_of_toNat_eq h0)⟩
  rw [exec, execDrw, State.readBytes_eq, if_neg hover, State.base]

/-- The byte of a flag that decides `p` is 1 or 0 as `p` holds or not (R193). -/
theorem flagByte_of_iff {f : Bool} {p : Prop} (h : f = true ↔ p) :
    flagByte f = 1 ∧ p ∨ flagByte f = 0 ∧ ¬ p := by
  cases f with
  | true => exact .inl ⟨rfl, h.1 rfl⟩
  | false => exact .inr ⟨rfl, fun hp => Bool.false_ne_true (h.2 hp)⟩

end Sys2Proof.Machine
end

section
/-! PROOFS. The statements of 44_display.md: drawing, drawing twice, clipping, and the clear. -/

namespace Sys2Proof.Machine

/-- Settles O35, by whether the sprite lies in memory: the compositor's answer is the picture and VF. -/
theorem drawXorsSprite : Obligations.DrawXorsSprite := by
  refine ⟨encodes_of_op decode_opD, fun s x y n hf h => ?_,
    fun s x y n hn h => exec_drw_fault hn h x y⟩
  obtain ⟨t, hnext, hframe, hregs, hflag⟩ := exec_drw_next hf h x y
  have hfb : t.fb = (s.drawn x y n).1 := by rw [hframe]
  refine ⟨t, hnext, ?_, hregs, ?_, fun r c => ?_, ?_⟩
  · rw [hfb]
    exact hframe
  · rw [hfb]
    exact s.fb.displayMode_attachSprite _ _ _
  · rw [hfb]
    exact s.fb.pixel_attachSprite _ _ _ r c
  · rw [hflag, hfb]
    exact flagByte_of_iff (s.fb.collides_iff _ _ _)

/-- Settles O36: the second call undoes the first, so the pixels it turns off are those the first turned on. -/
theorem drawTwiceRestores : Obligations.DrawTwiceRestores := by
  intro fb bytes x y
  refine ⟨fb.pixel_attachSprite_twice bytes x y, ?_⟩
  simp only [Framebuffer.collides_iff, Framebuffer.pixel_attachSprite_twice, and_comm]

/-- Settles O37: the sprite has no bit there to XOR. -/
theorem spriteBodyClips : Obligations.SpriteBodyClips := by
  intro fb bytes x y r c h
  rw [Framebuffer.pixel_attachSprite, spriteCovers_outside h, Bool.xor_false]

/-- Settles O34: the blank framebuffer of the mode, then the default advance. -/
theorem clearTurnsPixelsOff : Obligations.ClearTurnsPixelsOff := by
  refine ⟨encodes_of_encode_key8, fun s u hf => ?_⟩
  obtain ⟨hmode, hpixels⟩ := s.fb.clear_spec
  exact ⟨_, State.advance_eq (s := { s with fb := s.fb.clear }) hf, rfl, hmode, hpixels⟩

end Sys2Proof.Machine
end

section
/-! SUPPORT. The facts the statements of 45_keypad_timers.md share: the two ends of the keypad's check, SKP
and SKNP by them, and what a tick and a key event do in each mode. -/

namespace Sys2Proof.Machine

variable {s : State} {x k : Nibble}

/-! ### The keypad's check (R291) and the key skips (R280, R281) -/

theorem State.isPressed_eq {n : Nat} (h : n = k.toNat) : s.isPressed n = .ok (s.key k) := by
  have hk : k.toNat < Config.numKeys := k.isLt
  rw [h, State.isPressed, if_pos hk, BitVec.ofNat_toNat, BitVec.setWidth_eq]

theorem State.isPressed_error {n : Nat} (h : 15 < n) :
    s.isPressed n = .error ⟨.keyIndexOutOfRange, n⟩ :=
  if_neg (Nat.not_lt.2 h)

theorem exec_skp_key (h : (s.reg x).toNat = k.toNat) : exec (.skp x) s = s.skipIf (s.key k) := by
  simp only [exec, execSkp, State.regNat, State.isPressed_eq h]

theorem exec_sknp_key (h : (s.reg x).toNat = k.toNat) : exec (.sknp x) s = s.skipIf (!s.key k) := by
  simp only [exec, execSknp, State.regNat, State.isPressed_eq h]

theorem exec_skp_fault (h : 15 < (s.reg x).toNat) :
    exec (.skp x) s = .next (s.raise ⟨.keyIndexOutOfRange, (s.reg x).toNat⟩) := by
  simp only [exec, execSkp, State.regNat, State.isPressed_error h]

theorem exec_sknp_fault (h : 15 < (s.reg x).toNat) :
    exec (.sknp x) s = .next (s.raise ⟨.keyIndexOutOfRange, (s.reg x).toNat⟩) := by
  simp only [exec, execSknp, State.regNat, State.isPressed_error h]

/-! ### Events by mode (R138, R285, R290) -/

theorem State.event_of_ended (h : s.mode = .halted ∨ s.mode = .stopped) (e : Event) : s.event e = s := by
  refine State.event_of_not_live ?_ e
  rcases h with h | h <;> rw [h] <;> rfl

theorem State.event_keyRelease_of_live (h : s.mode.live = true) (k : Nibble) :
    s.event (.keyRelease k) = s.setKey k false := if_pos h

theorem State.event_keyPress_of_run (h : s.mode = .run) (k : Nibble) :
    s.event (.keyPress k) = s.setKey k true := by
  simp only [State.event, State.keyPress, h]

theorem State.event_keyPress_of_wait (h : s.mode = .waitKey x) (k : Nibble) :
    s.event (.keyPress k) = if s.key k then s else s.completeWait x k := by
  simp only [State.event, State.keyPress, h]

/-- A completed wait sets its key's flag and no other, also where the PC write would fault. -/
theorem State.key_completeWait (s : State) (x k j : Nibble) :
    (s.completeWait x k).key j = if j = k then true else s.key j := by
  have hwoken : (s.woken x k).key j = if j = k then true else s.key j := by
    rw [State.woken, State.key_mk, State.key_setReg, State.key_setKey]
  rcases State.writePc_cases (s.advance_woken x k) with ⟨w, h, -⟩ | ⟨-, h⟩ <;> rw [h] <;> exact hwoken

/-- A completed wait writes the key's index to its register and no other register (R285). -/
theorem State.reg_completeWait (h : s.fetchable) (x k r : Nibble) :
    (s.completeWait x k).reg r = if r = x then k.setWidth 8 else s.reg r := by
  rw [State.completeWait_eq h, State.reg_mk, State.reg_setReg, State.reg_setKey]

end Sys2Proof.Machine
end

section
/-! PROOFS. The statements of 45_keypad_timers.md: the key skips, the key wait, the timer instructions, the
tick and the key events. -/

namespace Sys2Proof.Machine

/-- Settles O38: each is a skip on the key's flag, or the fault of the keypad's check. -/
theorem skipsTestKeys : Obligations.SkipsTestKeys := by
  refine ⟨encodes_of_encode_key8, encodes_of_encode_key8, fun s x hf =>
    ⟨fun k hk => ⟨?_, ?_⟩, fun h => ⟨exec_skp_fault h, exec_sknp_fault h⟩⟩⟩
  · rw [exec_skp_key hk]
    exact State.skipIf_of_iff hf Iff.rfl
  · rw [exec_sknp_key hk]
    exact State.skipIf_of_iff hf (iff_of_eq (Bool.not_eq_true' _))

/-- Settles O39: the mode is the instruction's one write. -/
theorem keyWaitBegins : Obligations.KeyWaitBegins :=
  ⟨encodes_of_encode_key8, fun _ _ => rfl⟩

/-- Settles O40: a press by whether the key was up, and the release of a live mode. -/
theorem keyPressCompletesWait : Obligations.KeyPressCompletesWait := by
  intro s x k hm hf
  have hpress := State.event_keyPress_of_wait hm k
  refine ⟨fun hup => ?_, fun hdown => ?_, ?_⟩
  · have hwake : s.event (.keyPress k) = s.completeWait x k := by
      rw [hpress, hup]
      rfl
    refine ⟨_, hwake, ?_, s.key_completeWait x k, ?_, fun r hr => ?_⟩
    · rw [State.completeWait_eq hf]
      rfl
    · rw [State.reg_completeWait hf, if_pos rfl]
      exact BitVec.toNat_setWidth_of_le (by decide)
    · rw [State.reg_completeWait hf, if_neg (List.ne_of_not_mem_cons hr)]
  · rw [hpress, if_pos hdown]
  · have hlive : s.mode.live = true := (Mode.live_iff _).2 (.inr ⟨x, hm⟩)
    exact ⟨_, State.event_keyRelease_of_live hlive k, rfl, hm, fun j => s.key_setKey k j false⟩

/-- Settles O41: each is one write of a register or a timer, then the default advance. -/
theorem timerTransfers : Obligations.TimerTransfers := by
  refine ⟨encodes_of_encode_key8, encodes_of_encode_key8, encodes_of_encode_key8, fun s x hf =>
    ⟨State.advance_setReg hf x s.dt, ?_, ?_⟩⟩
  · exact State.advance_eq (s := { s with dt := s.reg x }) hf
  · exact State.advance_eq (s := { s with st := s.reg x }) hf

/-- Settles O42: both timers count down in the live modes, and no event acts in the final ones. -/
theorem tickCountsDown : Obligations.TickCountsDown :=
  fun _ => ⟨fun h => State.event_tick_of_live ((Mode.live_iff _).2 h),
    fun h => State.event_of_ended h .tick⟩

/-- Settles O44, by the mode: a press that ends no key wait and a release are one write of the keypad. -/
theorem keyEventsWriteKeypad : Obligations.KeyEventsWriteKeypad := by
  refine fun s k => ⟨fun hrun => ?_, fun hlive => ?_, fun ⟨x, hwait⟩ => ?_, fun hend => ?_⟩
  · exact ⟨_, State.event_keyPress_of_run hrun k, rfl, fun j => s.key_setKey k j true⟩
  · exact ⟨_, State.event_keyRelease_of_live ((Mode.live_iff _).2 hlive) k, rfl,
      fun j => s.key_setKey k j false⟩
  · rw [State.event_keyPress_of_wait hwait]
    split
    case isTrue hdown => exact hdown
    case isFalse => rw [State.key_completeWait, if_pos rfl]
  · exact ⟨State.event_of_ended hend _, State.event_of_ended hend _⟩

end Sys2Proof.Machine
end

section
/-! SUPPORT. The facts the statements of 60_exceptions.md share: the ends that take no fault, the record a
fault leaves, and the transfers' one fault, whatever the form of memory. -/

namespace Sys2Proof.Machine

variable {s t u : State} {r : Result}

/-! ### Ends that take no fault (R316) -/

/-- The instruction that answers `r` takes no fault. -/
def GoesOn (r : Result) : Prop := ∃ u, r = .next u ∧ u.mode ≠ .halted

theorem GoesOn.of_run (h : r = .next u) (hm : u.mode = .run) : GoesOn r :=
  ⟨u, h, by simp [hm]⟩

/-- An instruction that ends in HALTED took a fault. -/
theorem not_goesOn_of_halted (hr : r = .next t) (ht : t.mode = .halted) : ¬ GoesOn r := by
  rintro ⟨u, hu, hmode⟩
  cases hu.symm.trans hr
  exact hmode ht

/-- Where an instruction can stand, the check of PC + 2 never fails (R38). -/
theorem State.advance_goesOn (hf : u.fetchable) (hm : u.mode = .run) : GoesOn u.advance :=
  .of_run (State.advance_eq hf) hm

/-- Where an instruction can stand, neither does that of PC + 4. -/
theorem State.skipIf_goesOn (hf : u.fetchable) (hm : u.mode = .run) (b : Bool) : GoesOn (u.skipIf b) :=
  .of_run (State.skipIf_eq hf b) hm

/-- An instruction that takes the fault `c` where `p` holds and goes on elsewhere halts only where `p`
holds, with the record of `c` (R320). -/
theorem halted_record {p : Prop} {c : Condition} (hr : r = .next t) (ht : t.mode = .halted)
    (fault : p → ∃ u : State, r = .next (u.raise c)) (next : ¬ p → GoesOn r) :
    p ∧ t.faultKind = c.kind ∧ t.faultInfo = c.info := by
  by_cases hp : p
  · obtain ⟨u, hu⟩ := fault hp
    cases hu.symm.trans hr
    exact ⟨hp, rfl, rfl⟩
  · exact absurd (next hp) (not_goesOn_of_halted hr ht)

/-! ### A store transfer (R77, R312) -/

theorem State.store_takes_fault (s : State) {bs : List Byte} (hne : bs ≠ [])
    (h : 4096 < s.i.toNat + bs.length) :
    ∃ u : State, concludeLoop State.advance (s.storeBytes s.base bs) =
      .next (u.raise ⟨.addressOutOfRange, max s.i.toNat 4096⟩) := by
  have hover : ¬ (s.base + bs.length ≤ 4096 ∨ bs = []) := not_or.2 ⟨Nat.not_le.2 h, hne⟩
  have hsome : (s.storeBytes s.base bs).2 = some ⟨.addressOutOfRange, max s.i.toNat 4096⟩ := by
    rw [State.storeBytes_eq, if_neg hover, State.base]
  exact ⟨_, concludeLoop_of_some hsome⟩

theorem State.store_goesOn (hf : s.fetchable) (hm : s.mode = .run) {bs : List Byte}
    (h : s.i.toNat + bs.length ≤ 4096) :
    GoesOn (concludeLoop State.advance (s.storeBytes s.base bs)) := by
  have hfits : s.base + bs.length ≤ 4096 ∨ bs = [] := .inl h
  rw [State.storeBytes_eq, if_pos hfits]
  exact State.advance_goesOn (u := { s with mem := s.mem.setAll s.base _ }) hf hm

/-- A store transfer halts only where its bytes reach address 4096. -/
theorem State.store_halted_record (hf : s.fetchable) (hm : s.mode = .run) {bs : List Byte} {n : Nat}
    (hlen : bs.length = n + 1) (hr : concludeLoop State.advance (s.storeBytes s.base bs) = .next t)
    (ht : t.mode = .halted) :
    4096 < s.i.toNat + (n + 1) ∧ t.faultKind = .addressOutOfRange ∧
      t.faultInfo = max s.i.toNat 4096 := by
  have hne : bs ≠ [] := List.ne_nil_of_length_eq_add_one hlen
  rw [← hlen]
  exact halted_record hr ht (s.store_takes_fault hne)
    fun h => State.store_goesOn hf hm (Nat.le_of_not_lt h)

/-! ### The other instructions that can fault (R311 to R314) -/

theorem exec_ret_halted_record (hm : s.mode = .run) {v : Nibble} (hr : exec (.ret v) s = .next t)
    (ht : t.mode = .halted) :
    s.sp.val = 0 ∧ t.faultKind = .stackUnderflow ∧ t.faultInfo = s.pc.toNat := by
  refine halted_record hr ht (fun h => ⟨s, exec_ret_underflow h v⟩) fun h => ?_
  obtain ⟨u, hnext, hu, -⟩ := exec_ret_next (Nat.pos_of_ne_zero h) v
  exact .of_run hnext (by rw [hu, hm])

theorem exec_call_halted_record (hf : s.fetchable) (hm : s.mode = .run) {nnn : Addr12}
    (hr : exec (.call nnn) s = .next t) (ht : t.mode = .halted) :
    s.sp.val = 16 ∧ t.faultKind = .stackOverflow ∧ t.faultInfo = s.pc.toNat := by
  refine halted_record hr ht (fun h => ⟨s, exec_call_overflow h nnn⟩) fun h => ?_
  obtain ⟨u, hnext, hu, -⟩ := exec_call_next hf (show s.sp.val < 16 by omega) nnn
  exact .of_run hnext (by rw [hu, hm])

/-- A register value that names a key, as the key's index. -/
theorem State.reg_eq_key {x : Nibble} (h : ¬ 15 < (s.reg x).toNat) :
    (s.reg x).toNat = (BitVec.ofNat 4 (s.reg x).toNat).toNat := by
  rw [BitVec.toNat_ofNat]
  omega

theorem exec_skp_halted_record (hf : s.fetchable) (hm : s.mode = .run) {x : Nibble}
    (hr : exec (.skp x) s = .next t) (ht : t.mode = .halted) :
    15 < (s.reg x).toNat ∧ t.faultKind = .keyIndexOutOfRange ∧ t.faultInfo = (s.reg x).toNat := by
  refine halted_record hr ht (fun h => ⟨s, exec_skp_fault h⟩) fun h => ?_
  rw [exec_skp_key (State.reg_eq_key h)]
  exact State.skipIf_goesOn hf hm _

theorem exec_sknp_halted_record (hf : s.fetchable) (hm : s.mode = .run) {x : Nibble}
    (hr : exec (.sknp x) s = .next t) (ht : t.mode = .halted) :
    15 < (s.reg x).toNat ∧ t.faultKind = .keyIndexOutOfRange ∧ t.faultInfo = (s.reg x).toNat := by
  refine halted_record hr ht (fun h => ⟨s, exec_sknp_fault h⟩) fun h => ?_
  rw [exec_sknp_key (State.reg_eq_key h)]
  exact State.skipIf_goesOn hf hm _

theorem exec_addI_halted_record (hf : s.fetchable) (hm : s.mode = .run) {x : Nibble}
    (hr : exec (.addI x) s = .next t) (ht : t.mode = .halted) :
    0xFFFF < s.i.toNat + (s.reg x).toNat ∧ t.faultKind = .valueOutOfRange ∧
      t.faultInfo = s.i.toNat + (s.reg x).toNat := by
  obtain ⟨-, addI⟩ := addIndexOrValueFault
  obtain ⟨fits, exceeds⟩ := addI s x hf
  refine halted_record hr ht (fun h => ⟨s, exceeds h⟩) fun h => ?_
  obtain ⟨u, hnext, hu, -⟩ := fits (Nat.le_of_not_lt h)
  exact .of_run hnext (by rw [hu, hm])

/-- A sprite of no rows reads nothing, so DRW with N = 0 takes no fault wherever I points. -/
theorem exec_drw_halted_record (hf : s.fetchable) (hm : s.mode = .run) {x y n : Nibble}
    (hr : exec (.drw x y n) s = .next t) (ht : t.mode = .halted) :
    (n ≠ 0 ∧ 4096 < s.i.toNat + n.toNat) ∧ t.faultKind = .addressOutOfRange ∧
      t.faultInfo = max s.i.toNat 4096 := by
  refine halted_record (c := ⟨.addressOutOfRange, max s.i.toNat 4096⟩) hr ht
    (fun ⟨hn, h⟩ => ⟨s, exec_drw_fault hn h x y⟩) fun h => ?_
  have hfits : n = 0 ∨ s.i.toNat + n.toNat ≤ 4096 := by
    by_cases hn : n = 0
    · exact .inl hn
    · exact .inr (Nat.le_of_not_lt fun hover => h ⟨hn, hover⟩)
  obtain ⟨u, hnext, hu, -⟩ := exec_drw_next hf hfits x y
  exact .of_run hnext (by rw [hu, hm])

theorem exec_load_halted_record (hf : s.fetchable) (hm : s.mode = .run) {x : Nibble}
    (hr : exec (.ldVxMem x) s = .next t) (ht : t.mode = .halted) :
    4096 < s.i.toNat + (x.toNat + 1) ∧ t.faultKind = .addressOutOfRange ∧
      t.faultInfo = max s.i.toNat 4096 := by
  refine halted_record (c := ⟨.addressOutOfRange, max s.i.toNat 4096⟩) hr ht (fun h => ?_) fun h => ?_
  · obtain ⟨u, hnext, hu, -⟩ := exec_load_fault x (s := s) (by omega)
    exact ⟨_, hu ▸ hnext⟩
  · obtain ⟨u, hnext, hu, -⟩ := exec_load_next x hf (by omega)
    exact .of_run hnext (by rw [hu, hm])

end Sys2Proof.Machine
end

section
/-! PROOFS. The statements of 60_exceptions.md: what taking a fault writes, what it leaves, and which
instruction faults for which cause. -/

namespace Sys2Proof.Machine

/-- Settles O9: the three writes are the definition of taking a fault. -/
theorem faultHaltsWithRecord : Obligations.FaultHaltsWithRecord :=
  fun _ _ => rfl

/-- Settles O48: HALTED is no end with a new PC, so the instruction took a fault, before which only a
transfer writes. -/
theorem faultLeavesStateAsBefore : Obligations.FaultLeavesStateAsBefore := by
  intro i s t hf hm h ht
  obtain ⟨u, hw, he⟩ := exec_cases h
  cases he with
  | next w eq =>
    subst eq
    exact absurd ht (hw.mode_ne_halted hm)
  | fault c eq _ _ clean =>
    subst eq
    exact ⟨hw.pc, fun hi => ⟨c, by rw [clean hf hi]⟩⟩

/-- Settles O49, instruction by instruction: each that can fault has one fault and one cause of it, and
every other one ends in an advance, a skip, a jump or the key wait. -/
theorem faultsHaveTheirCause : Obligations.FaultsHaveTheirCause := by
  intro i s t hf hm h ht
  cases i
  case ret => exact exec_ret_halted_record hm h ht
  case call => exact exec_call_halted_record hf hm h ht
  case skp => exact exec_skp_halted_record hf hm h ht
  case sknp => exact exec_sknp_halted_record hf hm h ht
  case addI => exact exec_addI_halted_record hf hm h ht
  case drw =>
    obtain ⟨⟨-, hover⟩, hrecord⟩ := exec_drw_halted_record hf hm h ht
    exact ⟨hover, hrecord⟩
  case ldB x => exact State.store_halted_record (bs := decimalDigits (s.reg x)) hf hm rfl h ht
  case ldMemVx x => exact State.store_halted_record hf hm (length_dumped s x) h ht
  case ldVxMem => exact exec_load_halted_record hf hm h ht
  case seImm | sneImm | seReg | sneReg =>
    exact not_goesOn_of_halted h ht (State.skipIf_goesOn hf hm _)
  case jp => exact not_goesOn_of_halted h ht (.of_run rfl hm)
  case jpV0 nnn => exact not_goesOn_of_halted h ht (.of_run (exec_jpV0_eq s nnn) hm)
  case ldVxK => exact not_goesOn_of_halted h ht ⟨_, rfl, nofun⟩
  all_goals exact not_goesOn_of_halted h ht (State.advance_goesOn hf hm)

end Sys2Proof.Machine
end

section
/-! SUPPORT. The facts the statements of 70_reset_and_hazards.md share: what a reset with a ROM gives, and
what an access at the register file's interface answers in each mode. -/

namespace Sys2Proof.Machine

variable {s : State}

/-! ### Reset with a ROM (R350 to R353) -/

theorem State.powerOn_unreadable (d : DisplayMode) :
    State.powerOn .unreadable d = (State.resetIn d).raise ⟨.romLoadError, 0⟩ := rfl

theorem State.powerOn_tooLarge {bytes : List Byte} (h : 3584 < bytes.length) (d : DisplayMode) :
    State.powerOn (.image bytes) d = (State.resetIn d).raise ⟨.romTooLarge, bytes.length⟩ := by
  have hlarge : bytes.length > Config.maxRom := h
  simp only [State.powerOn, State.loadRom, if_pos hlarge]

/-- A reset ends in the reset state with the ROM copied, or with the load's fault taken (R352, R353). -/
theorem State.powerOn_cases (rom : RomStream) (d : DisplayMode) :
    (∃ bytes : List Byte, bytes.length ≤ 3584 ∧
      State.powerOn rom d = { State.resetIn d with mem := Memory.setAll [] Config.progBase bytes }) ∨
    ∃ c : Condition, c.kind ≠ .none ∧ State.powerOn rom d = (State.resetIn d).raise c := by
  cases rom with
  | unreadable => exact .inr ⟨⟨.romLoadError, 0⟩, nofun, State.powerOn_unreadable d⟩
  | image bytes =>
    rcases Nat.lt_or_ge 3584 bytes.length with hlarge | hfits
    · exact .inr ⟨⟨.romTooLarge, bytes.length⟩, nofun, State.powerOn_tooLarge hlarge d⟩
    · exact .inl ⟨bytes, hfits, State.powerOn_eq hfits d⟩

/-- A ROM that fits lies inside the address space, so its copy is in canonical form. -/
theorem Memory.wf_rom {bytes : List Byte} (h : bytes.length ≤ 3584) :
    (Memory.setAll [] Config.progBase bytes).wf = true := by
  refine Memory.wf_setAll ?_ rfl
  rw [Config.progBase, Config.memSize]
  omega

/-- The bounds read no pixel, so they hold in either display mode. -/
theorem State.pcOk_resetIn (d : DisplayMode) : (State.resetIn d).PcOk := by
  obtain ⟨-, hpc, -⟩ := resetMeetsInvariants
  exact hpc.congr rfl rfl rfl rfl

/-! ### The register file's interface (R32, R33, U11) -/

theorem State.regFileRead_eq {n : Nat} (h : n ≤ 15) :
    s.regFileRead n = (some (s.reg (BitVec.ofNat 4 n)), s) := by
  have hindex : n < Config.numKeys := Nat.lt_succ_of_le h
  rw [State.regFileRead, State.readRegAt, if_pos hindex, State.ifaceLook]

theorem State.regFileWrite_eq (hlive : s.mode.live = true) {n : Nat} (h : n ≤ 15) (value : Nat) :
    s.regFileWrite n value = s.setReg (BitVec.ofNat 4 n) (BitVec.ofNat 8 value) := by
  have hindex : n < Config.numKeys := Nat.lt_succ_of_le h
  rw [State.regFileWrite, State.writeRegAt, if_pos hindex, State.ifaceTake, State.whileLive, if_pos hlive]

theorem Mode.not_live_of_ended {m : Mode} (h : m = .halted ∨ m = .stopped) : m.live = false := by
  rcases h with rfl | rfl <;> rfl

theorem State.ifaceTake_of_not_live (h : s.mode.live = false) (r : Except Condition State) :
    s.ifaceTake r = s := by
  rcases s.ifaceTake_cases r with ⟨-, hsame⟩ | ⟨hlive, -⟩ | ⟨hlive, -⟩
  · exact hsame
  · simp [h] at hlive
  · simp [h] at hlive

theorem State.ifaceLook_of_not_live {α : Type} (h : s.mode.live = false) (r : Except Condition α) :
    (s.ifaceLook r).2 = s := by
  cases r with
  | ok a => rfl
  | error c => exact State.ifaceTake_of_not_live h (.error c)

end Sys2Proof.Machine
end

section
/-! PROOFS. The statements of 70_reset_and_hazards.md: the invariants after any reset, the faults of the
load, and the register file's interface. -/

namespace Sys2Proof.Machine

/-- Settles O60: the load writes memory alone, in canonical form, and its faults leave memory and PC as
at reset. -/
theorem powerOnMeetsInvariants : Obligations.PowerOnMeetsInvariants := by
  obtain ⟨hmem, -, hrecord⟩ := resetMeetsInvariants
  refine ⟨fun rom d => ?_, State.powerOn_eq (bytes := []) (Nat.zero_le _) .chip8⟩
  rcases State.powerOn_cases rom d with ⟨bytes, hfits, hloaded⟩ | ⟨c, hc, hfault⟩
  · rw [hloaded]
    exact ⟨Memory.wf_rom hfits, (State.pcOk_resetIn d).of_no_wait (State.pcOk_resetIn d).pc rfl nofun,
      hrecord.halted, hrecord.info⟩
  · rw [hfault]
    exact ⟨hmem, (State.pcOk_resetIn d).raise c, .of_raise _ hc⟩

/-- Settles O59: a load that fails takes its fault, and an access at the register file's interface ends as
its index check answers, outside the final modes. -/
theorem romFaultsHalt : Obligations.RomFaultsHalt := by
  refine ⟨fun bytes d => ⟨State.powerOn_unreadable d, fun h => State.powerOn_tooLarge h d⟩,
    fun s n value => ⟨State.regFileRead_eq, fun hmode => ?_, fun hend => ?_⟩⟩
  · have hlive := (Mode.live_iff _).2 hmode
    refine ⟨fun h => ⟨_, State.regFileWrite_eq hlive h value, rfl, ?_, fun r hr => ?_⟩,
      fun h => State.regFile_fault hlive h value⟩
    · rw [State.reg_setReg, if_pos rfl, BitVec.toNat_ofNat]
    · rw [State.reg_setReg, if_neg (List.ne_of_not_mem_cons hr)]
  · have hfinal := Mode.not_live_of_ended hend
    exact ⟨State.ifaceLook_of_not_live hfinal _, State.ifaceTake_of_not_live hfinal _⟩

end Sys2Proof.Machine
end
